-- ==== Sys2Proof/Word.lean ====
section
/-! DEFINITION. The two bit-vector widths of the machine: words and bytes (spec/00_scope.md R6, R7). -/

namespace Sys2Proof

/-- A word: register contents, addresses, memory words, instruction words. XLEN = ADDR_BITS = ILEN = 16 (R6). -/
abbrev Word := BitVec 16

/-- A character or a byte of the image file: 8 bits (R10, R51). -/
abbrev Byte := BitVec 8

end Sys2Proof
end

