-- ==== Sys2Proof/Syntax.lean ====
section
/-! DEFINITION. The instructions: one constructor for each of the 25 rows of spec/opcode_table.json
(spec/30_encoding.md R82, R85 to R93). -/

namespace Sys2Proof

/-- The eight general registers (spec/10_state.md R20). -/
inductive Reg where
  | r0 | r1 | r2 | r3 | r4 | r5 | r6 | r7
  deriving DecidableEq, Repr

/-- One constructor per row of the opcode table, with the row's fields. Bits a row ignores (R95) are no field, except in the
three illegal rows, whose fault record holds the whole instruction word (R171; log entry 33). -/
inductive Instr where
  /-- ADD, register form (R110). -/
  | addReg (dr sr1 sr2 : Reg)
  /-- ADD, immediate form (R111). -/
  | addImm (dr sr1 : Reg) (imm5 : BitVec 5)
  /-- AND, register form (R112). -/
  | andReg (dr sr1 sr2 : Reg)
  /-- AND, immediate form (R113). -/
  | andImm (dr sr1 : Reg) (imm5 : BitVec 5)
  /-- NOT (R114). -/
  | not (dr sr : Reg)
  /-- BR with its three condition bits (R120). -/
  | br (n z p : Bool) (offset9 : BitVec 9)
  /-- JMP, and RET (R121). -/
  | jmp (baseR : Reg)
  /-- JSR, the PC-relative form (R122). -/
  | jsr (offset11 : BitVec 11)
  /-- JSRR, the register form (R123). -/
  | jsrr (baseR : Reg)
  /-- LD (R130). -/
  | ld (dr : Reg) (offset9 : BitVec 9)
  /-- LDI (R131). -/
  | ldi (dr : Reg) (offset9 : BitVec 9)
  /-- LDR (R132). -/
  | ldr (dr baseR : Reg) (offset6 : BitVec 6)
  /-- LEA (R133). -/
  | lea (dr : Reg) (offset9 : BitVec 9)
  /-- ST (R140). -/
  | st (sr : Reg) (offset9 : BitVec 9)
  /-- STI (R141). -/
  | sti (sr : Reg) (offset9 : BitVec 9)
  /-- STR (R142). -/
  | str (sr baseR : Reg) (offset6 : BitVec 6)
  /-- TRAP x20 (R153). -/
  | trapGetc
  /-- TRAP x21 (R154). -/
  | trapOut
  /-- TRAP x22 (R155). -/
  | trapPuts
  /-- TRAP x23 (R156). -/
  | trapIn
  /-- TRAP x24 (R157). -/
  | trapPutsp
  /-- TRAP x25 (R158). -/
  | trapHalt
  /-- TRAP with any other vector (R159); `unused` is `ir[11:8]`. -/
  | trapUnknown (unused : BitVec 4) (trapvect8 : BitVec 8)
  /-- Opcode 1000 (R160); `unused` is `ir[11:0]`. -/
  | reserved1000 (unused : BitVec 12)
  /-- Opcode 1101 (R161); `unused` is `ir[11:0]`. -/
  | reserved1101 (unused : BitVec 12)
  deriving DecidableEq, Repr

end Sys2Proof
end

