-- ==== Sys2Proof/WellFormed.lean ====
section
/-! DEFINITION. Which terms of `Instr` some instruction word stands for. Every field has exactly the width of its row
(spec/30_encoding.md R84), so the one check left is the vector of TRAP.unknown (R159: "any other vector"). -/

namespace Sys2Proof

/-- The six trap vectors that select a service (spec/44_trap.md R151). -/
def isServiceVector (v : BitVec 8) : Bool :=
  v = 0x20#8 || v = 0x21#8 || v = 0x22#8 || v = 0x23#8 || v = 0x24#8 || v = 0x25#8

/-- Some instruction word decodes to this term. -/
def Instr.wellFormed : Instr → Bool
  | .addReg _ _ _ => true
  | .addImm _ _ _ => true
  | .andReg _ _ _ => true
  | .andImm _ _ _ => true
  | .not _ _ => true
  | .br _ _ _ _ => true
  | .jmp _ => true
  | .jsr _ => true
  | .jsrr _ => true
  | .ld _ _ => true
  | .ldi _ _ => true
  | .ldr _ _ _ => true
  | .lea _ _ => true
  | .st _ _ => true
  | .sti _ _ => true
  | .str _ _ _ => true
  | .trapGetc => true
  | .trapOut => true
  | .trapPuts => true
  | .trapIn => true
  | .trapPutsp => true
  | .trapHalt => true
  | .trapUnknown _ v => !isServiceVector v
  | .reserved1000 _ => true
  | .reserved1101 _ => true

end Sys2Proof
end

