-- ==== Sys2Proof/Decode.lean ====
section
/-! DEFINITION. The decoder, total on every word and on every list of bytes, the encoder, and the machine-readable opcode
table (spec/30_encoding.md R81 to R97). Opcode numbers and field positions are PRESUMED: the family's, by the spec's
decisions D1 and D2 (log entries 8 and 9). -/

namespace Sys2Proof

/-! ### Register numbers (R20, R84) -/

/-- The register a 3-bit field names. -/
def Reg.ofBits (b : BitVec 3) : Reg :=
  match b.getLsbD 2, b.getLsbD 1, b.getLsbD 0 with
  | false, false, false => .r0
  | false, false, true => .r1
  | false, true, false => .r2
  | false, true, true => .r3
  | true, false, false => .r4
  | true, false, true => .r5
  | true, true, false => .r6
  | true, true, true => .r7

/-- The 3-bit number of a register. -/
def Reg.toBits : Reg → BitVec 3
  | .r0 => 0b000#3
  | .r1 => 0b001#3
  | .r2 => 0b010#3
  | .r3 => 0b011#3
  | .r4 => 0b100#3
  | .r5 => 0b101#3
  | .r6 => 0b110#3
  | .r7 => 0b111#3

/-! ### The decoder -/

/-- `ir[hi:lo]` for a field of `len` bits whose lowest bit is `lo` (R7). -/
def bits (ir : Word) (lo len : Nat) : BitVec len := ir.extractLsb' lo len

/-- The register field whose lowest bit is `lo`. -/
def regField (ir : Word) (lo : Nat) : Reg := Reg.ofBits (bits ir lo 3)

/-- The trap dispatcher's selection (R150, R151): six vectors, and every other one unknown. -/
def decodeTrap (ir : Word) : Instr :=
  let v := bits ir 0 8
  if v = 0x20#8 then .trapGetc
  else if v = 0x21#8 then .trapOut
  else if v = 0x22#8 then .trapPuts
  else if v = 0x23#8 then .trapIn
  else if v = 0x24#8 then .trapPutsp
  else if v = 0x25#8 then .trapHalt
  else .trapUnknown (bits ir 8 4) v

/-- The instruction a word stands for (R80, R82). The four Booleans matched are `ir[15]` to `ir[12]`, the opcode, so each
arm's left side is the row's opcode number. Every word is the word of exactly one row (R97): nothing is rejected here, the
illegal words (R96) being rows whose meaning raises IllegalOpcode. -/
def decodeWord (ir : Word) : Instr :=
  match ir.getLsbD 15, ir.getLsbD 14, ir.getLsbD 13, ir.getLsbD 12 with
  | false, false, false, false => .br (ir.getLsbD 11) (ir.getLsbD 10) (ir.getLsbD 9) (bits ir 0 9)
  | false, false, false, true =>
    if ir.getLsbD 5 then .addImm (regField ir 9) (regField ir 6) (bits ir 0 5)
    else .addReg (regField ir 9) (regField ir 6) (regField ir 0)
  | false, false, true, false => .ld (regField ir 9) (bits ir 0 9)
  | false, false, true, true => .st (regField ir 9) (bits ir 0 9)
  | false, true, false, false => if ir.getLsbD 11 then .jsr (bits ir 0 11) else .jsrr (regField ir 6)
  | false, true, false, true =>
    if ir.getLsbD 5 then .andImm (regField ir 9) (regField ir 6) (bits ir 0 5)
    else .andReg (regField ir 9) (regField ir 6) (regField ir 0)
  | false, true, true, false => .ldr (regField ir 9) (regField ir 6) (bits ir 0 6)
  | false, true, true, true => .str (regField ir 9) (regField ir 6) (bits ir 0 6)
  | true, false, false, false => .reserved1000 (bits ir 0 12)
  | true, false, false, true => .not (regField ir 9) (regField ir 6)
  | true, false, true, false => .ldi (regField ir 9) (bits ir 0 9)
  | true, false, true, true => .sti (regField ir 9) (bits ir 0 9)
  | true, true, false, false => .jmp (regField ir 6)
  | true, true, false, true => .reserved1101 (bits ir 0 12)
  | true, true, true, false => .lea (regField ir 9) (bits ir 0 9)
  | true, true, true, true => decodeTrap ir

/-- Why a list of bytes holds no instruction word. -/
inductive DecodeError where
  /-- Fewer than two bytes are left: every instruction is one whole word (R81). -/
  | truncated
  deriving DecidableEq, Repr

/-- The instruction at the head of a list of bytes, and the bytes after it; the first byte is bits 15:8 (R56, R194). -/
def decodeBytes : List Byte → Except DecodeError (Instr × List Byte)
  | hi :: lo :: rest => .ok (decodeWord (hi ++ lo), rest)
  | [_] => .error .truncated
  | [] => .error .truncated

/-- The instruction this decoder reads from the word whose bits are `w`; none where `w` does not fit in `nbits` bits or
`nbits` is longer than the one length (R81). A word shorter than 16 bits has zeros above (log entry 32). -/
def decodeTableWord (nbits w : Nat) : Option Instr :=
  if nbits ≤ 16 ∧ w < 2 ^ nbits then
    let ir : Word := BitVec.ofNat 16 w
    match decodeBytes [bits ir 8 8, bits ir 0 8] with
    | .ok (i, _) => some i
    | .error _ => none
  else none

/-! ### The encoder -/

/-- The instruction word of a term, with the assembler's values in the ignored bits (R85 to R93, R95). -/
def encode : Instr → Word
  | .addReg dr sr1 sr2 => 0b0001#4 ++ dr.toBits ++ sr1.toBits ++ 0b000#3 ++ sr2.toBits
  | .addImm dr sr1 imm5 => 0b0001#4 ++ dr.toBits ++ sr1.toBits ++ 0b1#1 ++ imm5
  | .andReg dr sr1 sr2 => 0b0101#4 ++ dr.toBits ++ sr1.toBits ++ 0b000#3 ++ sr2.toBits
  | .andImm dr sr1 imm5 => 0b0101#4 ++ dr.toBits ++ sr1.toBits ++ 0b1#1 ++ imm5
  | .not dr sr => 0b1001#4 ++ dr.toBits ++ sr.toBits ++ 0b111111#6
  | .br n z p off => 0b0000#4 ++ BitVec.ofBool n ++ BitVec.ofBool z ++ BitVec.ofBool p ++ off
  | .jmp b => 0b1100#4 ++ 0b000#3 ++ b.toBits ++ 0b000000#6
  | .jsr off => 0b0100#4 ++ 0b1#1 ++ off
  | .jsrr b => 0b0100#4 ++ 0b000#3 ++ b.toBits ++ 0b000000#6
  | .ld dr off => 0b0010#4 ++ dr.toBits ++ off
  | .ldi dr off => 0b1010#4 ++ dr.toBits ++ off
  | .ldr dr b off => 0b0110#4 ++ dr.toBits ++ b.toBits ++ off
  | .lea dr off => 0b1110#4 ++ dr.toBits ++ off
  | .st sr off => 0b0011#4 ++ sr.toBits ++ off
  | .sti sr off => 0b1011#4 ++ sr.toBits ++ off
  | .str sr b off => 0b0111#4 ++ sr.toBits ++ b.toBits ++ off
  | .trapGetc => 0b1111#4 ++ 0b0000#4 ++ 0x20#8
  | .trapOut => 0b1111#4 ++ 0b0000#4 ++ 0x21#8
  | .trapPuts => 0b1111#4 ++ 0b0000#4 ++ 0x22#8
  | .trapIn => 0b1111#4 ++ 0b0000#4 ++ 0x23#8
  | .trapPutsp => 0b1111#4 ++ 0b0000#4 ++ 0x24#8
  | .trapHalt => 0b1111#4 ++ 0b0000#4 ++ 0x25#8
  | .trapUnknown u v => 0b1111#4 ++ u ++ v
  | .reserved1000 u => 0b1000#4 ++ u
  | .reserved1101 u => 0b1101#4 ++ u

/-- The bits of an instruction's word that its row ignores (R95). -/
def Instr.ignoredBits : Instr → Word
  | .addReg _ _ _ => 0x0018#16
  | .addImm _ _ _ => 0x0000#16
  | .andReg _ _ _ => 0x0018#16
  | .andImm _ _ _ => 0x0000#16
  | .not _ _ => 0x003F#16
  | .br _ _ _ _ => 0x0000#16
  | .jmp _ => 0x0E3F#16
  | .jsr _ => 0x0000#16
  | .jsrr _ => 0x063F#16
  | .ld _ _ => 0x0000#16
  | .ldi _ _ => 0x0000#16
  | .ldr _ _ _ => 0x0000#16
  | .lea _ _ => 0x0000#16
  | .st _ _ => 0x0000#16
  | .sti _ _ => 0x0000#16
  | .str _ _ _ => 0x0000#16
  | .trapGetc => 0x0F00#16
  | .trapOut => 0x0F00#16
  | .trapPuts => 0x0F00#16
  | .trapIn => 0x0F00#16
  | .trapPutsp => 0x0F00#16
  | .trapHalt => 0x0F00#16
  | .trapUnknown _ _ => 0x0000#16
  | .reserved1000 _ => 0x0000#16
  | .reserved1101 _ => 0x0000#16

/-! ### The opcode table (R97) -/

/-- One row of spec/opcode_table.json: a word selects it when `w & mask = value`. -/
structure TableRow where
  mnemonic : String
  format : String
  mask : Word
  value : Word
  deriving DecidableEq, Repr

/-- The word selects the row (R97). -/
def TableRow.selects (r : TableRow) (w : Word) : Bool := w &&& r.mask = r.value

/-- The rows in the table's order: the first that a word selects is the word's row (R97). -/
def opcodeTable : List TableRow :=
  [⟨"ADD", "F-OPR", 0xF020#16, 0x1000#16⟩,
   ⟨"ADD", "F-OPI", 0xF020#16, 0x1020#16⟩,
   ⟨"AND", "F-OPR", 0xF020#16, 0x5000#16⟩,
   ⟨"AND", "F-OPI", 0xF020#16, 0x5020#16⟩,
   ⟨"NOT", "F-NOT", 0xF000#16, 0x9000#16⟩,
   ⟨"BR", "F-BR", 0xF000#16, 0x0000#16⟩,
   ⟨"JMP", "F-JMP", 0xF000#16, 0xC000#16⟩,
   ⟨"JSR", "F-JSR", 0xF800#16, 0x4800#16⟩,
   ⟨"JSRR", "F-JSRR", 0xF800#16, 0x4000#16⟩,
   ⟨"LD", "F-PC9", 0xF000#16, 0x2000#16⟩,
   ⟨"LDI", "F-PC9", 0xF000#16, 0xA000#16⟩,
   ⟨"LDR", "F-BASE6", 0xF000#16, 0x6000#16⟩,
   ⟨"LEA", "F-PC9", 0xF000#16, 0xE000#16⟩,
   ⟨"ST", "F-PC9", 0xF000#16, 0x3000#16⟩,
   ⟨"STI", "F-PC9", 0xF000#16, 0xB000#16⟩,
   ⟨"STR", "F-BASE6", 0xF000#16, 0x7000#16⟩,
   ⟨"TRAP.GETC", "F-TRAP", 0xF0FF#16, 0xF020#16⟩,
   ⟨"TRAP.OUT", "F-TRAP", 0xF0FF#16, 0xF021#16⟩,
   ⟨"TRAP.PUTS", "F-TRAP", 0xF0FF#16, 0xF022#16⟩,
   ⟨"TRAP.IN", "F-TRAP", 0xF0FF#16, 0xF023#16⟩,
   ⟨"TRAP.PUTSP", "F-TRAP", 0xF0FF#16, 0xF024#16⟩,
   ⟨"TRAP.HALT", "F-TRAP", 0xF0FF#16, 0xF025#16⟩,
   ⟨"TRAP.unknown", "F-TRAP", 0xF000#16, 0xF000#16⟩,
   ⟨"RESERVED.1000", "F-RSV", 0xF000#16, 0x8000#16⟩,
   ⟨"RESERVED.1101", "F-RSV", 0xF000#16, 0xD000#16⟩]

/-- The index in `opcodeTable` of an instruction's row. -/
def Instr.tableRow : Instr → Nat
  | .addReg _ _ _ => 0
  | .addImm _ _ _ => 1
  | .andReg _ _ _ => 2
  | .andImm _ _ _ => 3
  | .not _ _ => 4
  | .br _ _ _ _ => 5
  | .jmp _ => 6
  | .jsr _ => 7
  | .jsrr _ => 8
  | .ld _ _ => 9
  | .ldi _ _ => 10
  | .ldr _ _ _ => 11
  | .lea _ _ => 12
  | .st _ _ => 13
  | .sti _ _ => 14
  | .str _ _ _ => 15
  | .trapGetc => 16
  | .trapOut => 17
  | .trapPuts => 18
  | .trapIn => 19
  | .trapPutsp => 20
  | .trapHalt => 21
  | .trapUnknown _ _ => 22
  | .reserved1000 _ => 23
  | .reserved1101 _ => 24

/-- The index of the first row of the table that a word selects (R97). -/
def firstRow (w : Word) : Option Nat := opcodeTable.findIdx? (fun r => r.selects w)

/-- The instruction raises IllegalOpcode (the rows whose "illegal" field is true, R97). -/
def Instr.illegal : Instr → Bool
  | .addReg _ _ _ => false
  | .addImm _ _ _ => false
  | .andReg _ _ _ => false
  | .andImm _ _ _ => false
  | .not _ _ => false
  | .br _ _ _ _ => false
  | .jmp _ => false
  | .jsr _ => false
  | .jsrr _ => false
  | .ld _ _ => false
  | .ldi _ _ => false
  | .ldr _ _ _ => false
  | .lea _ _ => false
  | .st _ _ => false
  | .sti _ _ => false
  | .str _ _ _ => false
  | .trapGetc => false
  | .trapOut => false
  | .trapPuts => false
  | .trapIn => false
  | .trapPutsp => false
  | .trapHalt => false
  | .trapUnknown _ _ => true
  | .reserved1000 _ => true
  | .reserved1101 _ => true

end Sys2Proof
end

