-- ==== Sys2Proof/Machine/BitFields.lean ====
section
/-! DEFINITION. Extending a field to a word, and the two bytes of a word (spec/00_scope.md R9, R10; spec/20_memory.md R51). -/

namespace Sys2Proof.Machine

/-- `sext_N` (R9): the field's bits, and its sign bit in every higher bit. -/
def sext {n : Nat} (v : BitVec n) : Word := v.signExtend 16

/-- `zext_16` (R10): `0x00 ++ b`. -/
def zext16 (b : Byte) : Word := 0x00#8 ++ b

/-- `w[7:0]` (R51). -/
def lowByte (w : Word) : Byte := w.extractLsb' 0 8

/-- `w[15:8]` (R51). -/
def highByte (w : Word) : Byte := w.extractLsb' 8 8

end Sys2Proof.Machine
end

