-- ==== Sys2Proof/Config.lean ====
section
/-! DEFINITION. The parameters an instance of the hardware fixes (spec/00_scope.md R6). Their default values stand in
Machine/Defaults.lean. RESET_PC is no field here: it is the origin word of the image that `boot` loads (R27, R194). -/

namespace Sys2Proof

/-- The parameters of R6 that stay fixed while a machine runs. They are carried in `State.cfg`, which no step changes, so
that a statement about every state is a statement about every instance (log entries 6 and 7). -/
structure Config where
  /-- KBSR_ADDR, the keyboard status address. -/
  kbsr : Word
  /-- KBDR_ADDR, the keyboard data address. -/
  kbdr : Word
  /-- HALT_NOTICE, the bytes the HALT service emits. -/
  haltNotice : List Byte
  deriving DecidableEq, Repr

/-- R6: KBDR_ADDR "must differ from" KBSR_ADDR. -/
abbrev Config.wf (c : Config) : Prop := c.kbsr ≠ c.kbdr

end Sys2Proof
end

