-- ==== Sys2Proof/Machine/Defaults.lean ====
section
/-! DEFINITION. The default values of the parameters of spec/00_scope.md R6 and the reset values of spec/10_state.md R40
that are values. -/

namespace Sys2Proof.Machine

/-- PRESUMED: the family's address, the default of the spec's decision D6 (log entry 6). -/
def defaultKbsr : Word := 0xFE00#16

/-- PRESUMED: the family's address, the default of the spec's decision D6 (log entry 6). -/
def defaultKbdr : Word := 0xFE02#16

/-- PRESUMED: "HALT" and a line feed, the default of the spec's decision D20 (log entry 7). -/
def defaultHaltNotice : List Byte := [0x48#8, 0x41#8, 0x4C#8, 0x54#8, 0x0A#8]

/-- The parameters at their defaults (R6). -/
def defaultConfig : Config := { kbsr := defaultKbsr, kbdr := defaultKbdr, haltNotice := defaultHaltNotice }

/-- DESIGN CHOICE: the origin of every example of the source stands for RESET_PC while no image is loaded
(R27; log entry 5). -/
def defaultResetPc : Word := 0x3000#16

/-- DESIGN CHOICE: the spec's decision D8 (R22, R40; log entry 3). -/
def resetReg : Word := 0x0000#16

end Sys2Proof.Machine
end

