-- ==== Sys2Proof/Machine/State.lean ====
section
/-! DEFINITION. The whole state of the machine as plain data, its value after reset, and the reasons a step can stop
(spec/10_state.md R20 to R40). -/

namespace Sys2Proof.Machine

/-- The eight independent general registers (R20). -/
structure RegFile where
  r0 : Word
  r1 : Word
  r2 : Word
  r3 : Word
  r4 : Word
  r5 : Word
  r6 : Word
  r7 : Word
  deriving DecidableEq, Repr

/-- The condition register: exactly one of three states (R28). -/
inductive Cond where
  /-- NEGATIVE -/
  | n
  /-- ZERO -/
  | z
  /-- POSITIVE -/
  | p
  deriving DecidableEq, Repr

/-- The state of the execution loop (R33). -/
inductive RunState where
  | running
  | halted
  | faulted
  deriving DecidableEq, Repr

/-- The two causes of IllegalOpcode (spec/60_exceptions.md R170). -/
inductive IllegalReason where
  | reservedOpcode
  | unknownTrapVector
  deriving DecidableEq, Repr

/-- What the fault records (spec/60_exceptions.md R171): the cause and the instruction word. -/
structure FaultRecord where
  reason : IllegalReason
  ir : Word
  deriving DecidableEq, Repr

/-- The contents of `mem` as (cell, byte) pairs: word address `a` is cell `2a` (bits 15:8) and cell `2a + 1` (bits 7:0).
A cell is not an architectural address (R51): it is how the list holds the words (log entry 1). -/
abbrev Memory := List Host.Cell

/-- The machine's state. -/
structure State where
  /-- `x[0]` to `x[7]` (R20). -/
  regs : RegFile
  /-- The program counter (R23). -/
  pc : Word
  /-- The condition register (R28). -/
  cond : Cond
  /-- The run state (R33). -/
  run : RunState
  /-- The fault record (spec/60_exceptions.md R171, R172). -/
  faultRec : Option FaultRecord
  /-- The memory, the keyboard status and data words among it (R35, R38). -/
  mem : Memory
  /-- `kbd_q`, the characters pending, oldest first (R36). -/
  kbdQ : List Byte
  /-- `con_out`, the bytes emitted since reset, oldest first (R37). -/
  conOut : List Byte
  /-- The MODEL'S OWN field: the characters still to arrive, one batch for each `MemRead` that a step is to make (R36: "takes
  the input sequence and its arrival times as an oracle"; spec/20_memory.md R67; log entry 26). -/
  arrivals : List (List Byte)
  /-- The MODEL'S OWN field: the instance's parameters, which no step changes (spec/00_scope.md R6; log entries 6, 7). -/
  cfg : Config
  deriving DecidableEq, Repr

/-- Why a step stops with a fault. -/
inductive Fault where
  /-- Raised by `step` alone, on a state whose run state is FAULTED: no further step is ever taken
  (spec/60_exceptions.md R172). It carries the fault record. Entering FAULTED is no fault of the model but a next state.
  SAFE: the hardware takes no step there (log entry 13). -/
  | faulted (record : Option FaultRecord)
  deriving DecidableEq, Repr

/-- Why the model refuses. -/
inductive Refusal where
  /-- Raised by an arm of `exec` whose instruction has no meaning yet; there is none. SAFE. -/
  | notModelled (mnemonic : String)
  /-- Raised by `boot`: the image has no origin word (spec/70_reset_and_hazards.md R195). SAFE. -/
  | imageWithoutOrigin
  /-- Raised by `boot`: the image has an odd number of bytes (R195). SAFE. -/
  | imageOfOddLength
  /-- Raised by `boot`: `origin + n > 65536` (R195). SAFE. -/
  | imageTooLarge
  /-- Raised by `boot`: KBSR_ADDR = KBDR_ADDR (spec/00_scope.md R6: they "must differ"). SAFE. -/
  | keyboardWordsCoincide
  deriving DecidableEq, Repr

/-- Every register at its reset value (R22, R40). -/
def RegFile.reset : RegFile :=
  { r0 := resetReg, r1 := resetReg, r2 := resetReg, r3 := resetReg
    r4 := resetReg, r5 := resetReg, r6 := resetReg, r7 := resetReg }

/-- The state when `run` becomes RUNNING, before the first fetch (R40): `origin` and `mem` come from the image, `pending`
and `arrivals` from the environment. `cond = Z` is a DESIGN CHOICE, the spec's decision D9 (R32; log entry 4). -/
def State.resetWith (cfg : Config) (origin : Word) (mem : Memory) (pending : List Byte)
    (arrivals : List (List Byte)) : State :=
  { regs := RegFile.reset, pc := origin, cond := .z, run := .running, faultRec := none, mem := mem,
    kbdQ := pending, conOut := [], arrivals := arrivals, cfg := cfg }

/-- The machine right after reset, with the default parameters, nothing loaded, nothing pending and nothing to arrive. -/
def State.reset : State := State.resetWith defaultConfig defaultResetPc [] [] []

end Sys2Proof.Machine
end

