-- ==== Sys2Proof/Machine/Ops.lean ====
section
/-! DEFINITION. The named operations over registers, memory, the keyboard, the output stream and the run state, and taking
the one exception (spec/00_scope.md R11 to R15, spec/20_memory.md R50 to R55, spec/60_exceptions.md R170 to R174). -/

namespace Sys2Proof.Machine

/-! ### Registers (spec/10_state.md R20, R21) -/

/-- The word a register holds. -/
def RegFile.get (f : RegFile) : Reg → Word
  | .r0 => f.r0
  | .r1 => f.r1
  | .r2 => f.r2
  | .r3 => f.r3
  | .r4 => f.r4
  | .r5 => f.r5
  | .r6 => f.r6
  | .r7 => f.r7

/-- The register file after a write of one register; no register is hardwired (R20). -/
def RegFile.set (f : RegFile) (r : Reg) (v : Word) : RegFile :=
  match r with
  | .r0 => { f with r0 := v }
  | .r1 => { f with r1 := v }
  | .r2 => { f with r2 := v }
  | .r3 => { f with r3 := v }
  | .r4 => { f with r4 := v }
  | .r5 => { f with r5 := v }
  | .r6 => { f with r6 := v }
  | .r7 => { f with r7 := v }

/-- `x[i]` (R11). -/
def State.reg (s : State) (r : Reg) : Word := s.regs.get r

/-- `x[i] <- v` (R11). -/
def State.setReg (s : State) (r : Reg) (v : Word) : State := { s with regs := s.regs.set r v }

/-- `pc <- t` (R11). -/
def State.setPc (s : State) (t : Word) : State := { s with pc := t }

/-! ### The memory array (spec/10_state.md R38, spec/20_memory.md R50) -/

/-- How many cells hold the 65536 words. -/
def Memory.cellCount : Nat := 2 * 65536

/-- What an unlisted cell reads as: memory is zero until written (spec/10_state.md R26, R40; log entry 2). -/
def Memory.unlisted : Byte := 0x00#8

/-- The byte a cell holds. -/
def Memory.byteAt : Memory → Nat → Byte
  | [], _ => Memory.unlisted
  | c :: m, k => if c.1 = k then c.2 else Memory.byteAt m k

/-- The memory without an entry for the cell. -/
def Memory.erase (m : Memory) (k : Nat) : Memory := m.filter (fun c => c.1 != k)

/-- The memory with an entry put before the first greater cell. -/
def Memory.insert : Memory → Nat → Byte → Memory
  | [], k, v => [(k, v)]
  | c :: m, k, v => if k < c.1 then (k, v) :: c :: m else c :: Memory.insert m k v

/-- A write of one cell; the value an unlisted cell reads as takes no entry. -/
def Memory.setByte (m : Memory) (k : Nat) (v : Byte) : Memory :=
  if v = Memory.unlisted then m.erase k else (m.erase k).insert k v

/-- The cell of `mem[a][15:8]`. -/
def highCell (a : Word) : Nat := 2 * a.toNat

/-- The cell of `mem[a][7:0]`. -/
def lowCell (a : Word) : Nat := 2 * a.toNat + 1

/-- `mem[a]`, with no side effect (R11). -/
def Memory.word (m : Memory) (a : Word) : Word := m.byteAt (highCell a) ++ m.byteAt (lowCell a)

/-- `mem[a] <- v`. -/
def Memory.setWord (m : Memory) (a : Word) (v : Word) : Memory :=
  (m.setByte (highCell a) (highByte v)).setByte (lowCell a) (lowByte v)

/-- The canonical form: cells strictly rising, no entry that an unlisted cell reads as, none outside the address space. -/
abbrev Memory.wf (m : Memory) : Prop :=
  m.Pairwise (fun c d => c.1 < d.1) ∧ ∀ c ∈ m, c.2 ≠ Memory.unlisted ∧ c.1 < Memory.cellCount

/-! ### The device primitives (spec/00_scope.md R15, spec/10_state.md R36, R37) -/

/-- `KbdPoll()`: at least one character is pending; changes nothing. -/
def kbdPoll (s : State) : Bool := !s.kbdQ.isEmpty

/-- `KbdRead()`: the oldest pending character and the state without it; none while the core has to wait. -/
def kbdRead (s : State) : Option (Byte × State) :=
  match s.kbdQ with
  | [] => none
  | c :: q => some (c, { s with kbdQ := q })

/-- `ConOut` of some bytes in order: it never waits and never fails (log entry 28). -/
def conEmit (bs : List Byte) (s : State) : State := { s with conOut := s.conOut ++ bs }

/-! ### The memory interface (spec/20_memory.md R52, R53) -/

/-- `MemWrite(a, v)` (R53): a plain store at every address. -/
def memWrite (a v : Word) (s : State) : State := { s with mem := s.mem.setWord a v }

/-- What a read of the status address does before it returns (R52; log entry 15). -/
def pollStatus (s : State) : State :=
  match kbdRead s with
  | some (c, s1) => memWrite s1.cfg.kbdr (zext16 c) (memWrite s1.cfg.kbsr 0x8000#16 s1)
  | none => memWrite s.cfg.kbsr 0x0000#16 s

/-- The state after a read: only the status address has a side effect (R52). -/
def afterRead (a : Word) (s : State) : State := if a = s.cfg.kbsr then pollStatus s else s

/-- `MemRead(a)` (R52): the word returned, and the state after the read. -/
def memRead (a : Word) (s : State) : Word × State := ((afterRead a s).mem.word a, afterRead a s)

/-! ### The arrival of input (spec/10_state.md R36, spec/00_scope.md R16, spec/20_memory.md R67) -/

/-- The environment appends the next batch of its schedule to the pending characters (R36; log entry 26). -/
def deliver (s : State) : State :=
  match s.arrivals with
  | [] => s
  | batch :: later => { s with kbdQ := s.kbdQ ++ batch, arrivals := later }

/-- A `MemRead` that a step makes: what arrives before the read begins, then the read, whole (R67). An arrival at any moment
of a step, between two reads of one instruction among them, is the batch of the read that follows it (log entry 26). -/
def readInStep (a : Word) (s : State) : Word × State := memRead a (deliver s)

/-! ### The run state and the one exception -/

/-- `run <- HALTED` (spec/10_state.md R33). -/
def halt (s : State) : State := { s with run := .halted }

/-- `raise IllegalOpcode(reason, ir)` (spec/60_exceptions.md R172): run becomes FAULTED and the record is set, nothing else
changes; `pc` was incremented before and is kept. There is no handler, no saved pc and no return (R174; log entry 13). -/
def raiseIllegalOpcode (reason : IllegalReason) (ir : Word) (s : State) : State :=
  { s with run := .faulted, faultRec := some { reason := reason, ir := ir } }

/-- A GETC or IN that finds nothing pending: the step is not enabled, so the fetch's increment of `pc` is taken back
(spec/44_trap.md R153, R163; log entry 25). -/
def waitForInput (s : State) : State := { s with pc := s.pc - 1#16 }

end Sys2Proof.Machine
end

