-- ==== Sys2Proof/Machine/Flags.lean ====
section
/-! DEFINITION. The condition register: its mask, its update and the test of BR (spec/10_state.md R28 to R31). -/

namespace Sys2Proof.Machine

/-- The one-hot mask (R28), in the order of `ir[11:9]`. PRESUMED: the family's, the spec's decision D4 (log entry 11). -/
def Cond.mask : Cond → BitVec 3
  | .n => 0b100#3
  | .z => 0b010#3
  | .p => 0b001#3

/-- The state of `cond` that a word gives (R29). -/
def condOf (v : Word) : Cond :=
  if v.getLsbD 15 then .n
  else if v = 0x0000#16 then .z
  else .p

/-- `setcc(i)` (R13, R29): from the word the register holds now. -/
def setcc (r : Reg) (s : State) : State := { s with cond := condOf (s.reg r) }

/-- `x[DR] <- v; setcc(DR)`, the end of each of the seven instructions of R30. -/
def writeResult (dr : Reg) (v : Word) (s : State) : State := setcc dr (s.setReg dr v)

/-- `ir[11:9]` of a BR. -/
def nzpBits (n z p : Bool) : BitVec 3 := BitVec.ofBool n ++ BitVec.ofBool z ++ BitVec.ofBool p

/-- `(ir[11:9] & cond) != 0b000` (spec/41_control.md R120). -/
def branchTaken (n z p : Bool) (c : Cond) : Bool := nzpBits n z p &&& c.mask ≠ 0b000#3

end Sys2Proof.Machine
end

