-- ==== Sys2Proof/Machine/Operands.lean ====
section
/-! DEFINITION. The three data addressing modes (spec/42_loads.md R134), the target of JSR and the second operand of ADD and
AND (spec/30_encoding.md R94). In each, `s.pc` is the incremented pc (spec/10_state.md R24), and every sum is modulo 2^16
(spec/00_scope.md R8; log entry 23). The indirect mode is `readInStep` of a PC-relative address. -/

namespace Sys2Proof.Machine

/-- `pc + sext_9(PCoffset9)` (R134). -/
def pcRelative9 (offset9 : BitVec 9) (s : State) : Word := s.pc + sext offset9

/-- `pc + sext_11(PCoffset11)` (spec/41_control.md R122). -/
def pcRelative11 (offset11 : BitVec 11) (s : State) : Word := s.pc + sext offset11

/-- `x[BaseR] + sext_6(offset6)` (R134). -/
def basePlusOffset (baseR : Reg) (offset6 : BitVec 6) (s : State) : Word := s.reg baseR + sext offset6

/-- The second operand of ADD and AND when `ir[5] = 0` (R94). -/
def registerOperand (sr2 : Reg) (s : State) : Word := s.reg sr2

/-- The second operand of ADD and AND when `ir[5] = 1` (R94). -/
def immediateOperand (imm5 : BitVec 5) : Word := sext imm5

end Sys2Proof.Machine
end

