-- ==== Sys2Proof/Machine/Arith.lean ====
section
/-! DEFINITION. ADD, AND, NOT (spec/40_arith_logic.md). In every meaning `s` is the state after the fetch and the increment
of `pc` (spec/30_encoding.md R80). -/

namespace Sys2Proof.Machine

/-- ADD, register form (R110): the sum modulo 2^16. -/
def execAddReg (dr sr1 sr2 : Reg) (s : State) : Host.Outcome State Fault Refusal :=
  .next (writeResult dr (s.reg sr1 + registerOperand sr2 s) s)

/-- ADD, immediate form (R111). -/
def execAddImm (dr sr1 : Reg) (imm5 : BitVec 5) (s : State) : Host.Outcome State Fault Refusal :=
  .next (writeResult dr (s.reg sr1 + immediateOperand imm5) s)

/-- AND, register form (R112): bit by bit. -/
def execAndReg (dr sr1 sr2 : Reg) (s : State) : Host.Outcome State Fault Refusal :=
  .next (writeResult dr (s.reg sr1 &&& registerOperand sr2 s) s)

/-- AND, immediate form (R113). -/
def execAndImm (dr sr1 : Reg) (imm5 : BitVec 5) (s : State) : Host.Outcome State Fault Refusal :=
  .next (writeResult dr (s.reg sr1 &&& immediateOperand imm5) s)

/-- NOT (R114): each of the 16 bits inverted. -/
def execNot (dr sr : Reg) (s : State) : Host.Outcome State Fault Refusal :=
  .next (writeResult dr (~~~(s.reg sr)) s)

end Sys2Proof.Machine
end

