-- ==== Sys2Proof/Machine/Control.lean ====
section
/-! DEFINITION. BR, JMP, JSR, JSRR (spec/41_control.md). In every meaning `s.pc` is the incremented pc. None writes `cond`,
none touches memory, and none has a delay slot (R124). -/

namespace Sys2Proof.Machine

/-- BR (R120). -/
def execBr (n z p : Bool) (offset9 : BitVec 9) (s : State) : Host.Outcome State Fault Refusal :=
  if branchTaken n z p s.cond then .next (s.setPc (pcRelative9 offset9 s)) else .next s

/-- JMP, and RET (R121). -/
def execJmp (baseR : Reg) (s : State) : Host.Outcome State Fault Refusal :=
  .next (s.setPc (s.reg baseR))

/-- JSR (R122): `x[7] <- pc`, then `pc <- pc + sext_11`. -/
def execJsr (offset11 : BitVec 11) (s : State) : Host.Outcome State Fault Refusal :=
  .next ((s.setReg .r7 s.pc).setPc (pcRelative11 offset11 s))

/-- JSRR (R123): `x[7] <- pc` first, then `pc <- x[BaseR]`, so that `JSRR R7` falls through (log entry 24). -/
def execJsrr (baseR : Reg) (s : State) : Host.Outcome State Fault Refusal :=
  let s1 := s.setReg .r7 s.pc
  .next (s1.setPc (s1.reg baseR))

end Sys2Proof.Machine
end

