-- ==== Sys2Proof/Machine/Loads.lean ====
section
/-! DEFINITION. LD, LDI, LDR, LEA (spec/42_loads.md). In every meaning `s.pc` is the incremented pc; the reads go through
`readInStep`, so that a read of the status address polls (spec/20_memory.md R54) and sees what arrived before it (R67). -/

namespace Sys2Proof.Machine

/-- LD (R130). -/
def execLd (dr : Reg) (offset9 : BitVec 9) (s : State) : Host.Outcome State Fault Refusal :=
  let data := readInStep (pcRelative9 offset9 s) s
  .next (writeResult dr data.1 data.2)

/-- LDI (R131): the pointer read, then the data read; input may arrive before each. -/
def execLdi (dr : Reg) (offset9 : BitVec 9) (s : State) : Host.Outcome State Fault Refusal :=
  let pointer := readInStep (pcRelative9 offset9 s) s
  let data := readInStep pointer.1 pointer.2
  .next (writeResult dr data.1 data.2)

/-- LDR (R132): the address is computed from the base register's old value. -/
def execLdr (dr baseR : Reg) (offset6 : BitVec 6) (s : State) : Host.Outcome State Fault Refusal :=
  let data := readInStep (basePlusOffset baseR offset6 s) s
  .next (writeResult dr data.1 data.2)

/-- LEA (R133): no memory is read, and `cond` is set from the address. -/
def execLea (dr : Reg) (offset9 : BitVec 9) (s : State) : Host.Outcome State Fault Refusal :=
  .next (writeResult dr (pcRelative9 offset9 s) s)

end Sys2Proof.Machine
end

