-- ==== Sys2Proof/Machine/Stores.lean ====
section
/-! DEFINITION. ST, STI, STR (spec/43_stores.md). In every meaning `s.pc` is the incremented pc. -/

namespace Sys2Proof.Machine

/-- ST (R140). -/
def execSt (sr : Reg) (offset9 : BitVec 9) (s : State) : Host.Outcome State Fault Refusal :=
  .next (memWrite (pcRelative9 offset9 s) (s.reg sr) s)

/-- STI (R141): the pointer read, through `readInStep`, then the write. -/
def execSti (sr : Reg) (offset9 : BitVec 9) (s : State) : Host.Outcome State Fault Refusal :=
  let pointer := readInStep (pcRelative9 offset9 s) s
  .next (memWrite pointer.1 (pointer.2.reg sr) pointer.2)

/-- STR (R142). -/
def execStr (sr baseR : Reg) (offset6 : BitVec 6) (s : State) : Host.Outcome State Fault Refusal :=
  .next (memWrite (basePlusOffset baseR offset6 s) (s.reg sr) s)

end Sys2Proof.Machine
end

