-- ==== Sys2Proof/Machine/Trap.lean ====
section
/-! DEFINITION. The six trap services and the illegal words (spec/44_trap.md). A service runs whole inside the step of its
TRAP; it writes no `cond`, no `x[7]` and no memory (R150, R152; log entry 22). -/

namespace Sys2Proof.Machine

/-! ### The string scans -/

/-- The loop of PUTS (R155), from address `a`: plain reads, the low byte of each word, up to a zero word or address 0xFFFF
(log entries 16, 17, 18). The first argument is the recursion's fuel; the address space never exhausts 65536. -/
def putsScan (m : Memory) : Nat → Word → List Byte
  | 0, _ => []
  | fuel + 1, a =>
    if m.word a = 0x0000#16 then []
    else lowByte (m.word a) :: (if a = 0xFFFF#16 then [] else putsScan m fuel (a + 1#16))

/-- The loop of PUTSP (R157), from address `a`: low byte, then high byte, the first zero byte ending the string
(log entries 16, 17, 19). The first argument is the recursion's fuel, as in `putsScan`. -/
def putspScan (m : Memory) : Nat → Word → List Byte
  | 0, _ => []
  | fuel + 1, a =>
    if lowByte (m.word a) = 0x00#8 then []
    else lowByte (m.word a) ::
      (if highByte (m.word a) = 0x00#8 then []
       else highByte (m.word a) :: (if a = 0xFFFF#16 then [] else putspScan m fuel (a + 1#16)))

/-- The number of addresses: a scan reads no more words than this. -/
def scanFuel : Nat := 65536

/-! ### The services -/

/-- GETC (R153): `x[0] <- zext_16(KbdRead())`, or a wait. -/
def execTrapGetc (s : State) : Host.Outcome State Fault Refusal :=
  match kbdRead s with
  | some (c, s1) => .next (s1.setReg .r0 (zext16 c))
  | none => .next (waitForInput s)

/-- OUT (R154). -/
def execTrapOut (s : State) : Host.Outcome State Fault Refusal :=
  .next (conEmit [lowByte (s.reg .r0)] s)

/-- PUTS (R155). -/
def execTrapPuts (s : State) : Host.Outcome State Fault Refusal :=
  .next (conEmit (putsScan s.mem scanFuel (s.reg .r0)) s)

/-- IN (R156): as GETC, the character emitted before it is stored; no prompt (log entry 21). -/
def execTrapIn (s : State) : Host.Outcome State Fault Refusal :=
  match kbdRead s with
  | some (c, s1) => .next ((conEmit [c] s1).setReg .r0 (zext16 c))
  | none => .next (waitForInput s)

/-- PUTSP (R157). -/
def execTrapPutsp (s : State) : Host.Outcome State Fault Refusal :=
  .next (conEmit (putspScan s.mem scanFuel (s.reg .r0)) s)

/-- HALT (R158): the notice, then `run <- HALTED`. -/
def execTrapHalt (s : State) : Host.Outcome State Fault Refusal :=
  .next (halt (conEmit s.cfg.haltNotice s))

/-! ### The illegal words: each takes the exception (spec/60_exceptions.md R170, R172) -/

/-- TRAP with any other vector (R159). -/
def execTrapUnknown (unused : BitVec 4) (trapvect8 : BitVec 8) (s : State) : Host.Outcome State Fault Refusal :=
  .next (raiseIllegalOpcode .unknownTrapVector (0b1111#4 ++ unused ++ trapvect8) s)

/-- Opcode 1000 (R160). -/
def execReserved1000 (unused : BitVec 12) (s : State) : Host.Outcome State Fault Refusal :=
  .next (raiseIllegalOpcode .reservedOpcode (0b1000#4 ++ unused) s)

/-- Opcode 1101 (R161). -/
def execReserved1101 (unused : BitVec 12) (s : State) : Host.Outcome State Fault Refusal :=
  .next (raiseIllegalOpcode .reservedOpcode (0b1101#4 ++ unused) s)

end Sys2Proof.Machine
end

