-- ==== Sys2Proof/Machine/Dispatch.lean ====
section
/-! DEFINITION. One arm for each constructor of Instr (spec/30_encoding.md R80). -/

namespace Sys2Proof.Machine

/-- The meaning of an instruction, on the state after the fetch and the increment of `pc`. -/
def exec (i : Instr) (s : State) : Host.Outcome State Fault Refusal :=
  match i with
  | .addReg dr sr1 sr2 => Sys2Proof.Machine.execAddReg dr sr1 sr2 s
  | .addImm dr sr1 imm5 => Sys2Proof.Machine.execAddImm dr sr1 imm5 s
  | .andReg dr sr1 sr2 => Sys2Proof.Machine.execAndReg dr sr1 sr2 s
  | .andImm dr sr1 imm5 => Sys2Proof.Machine.execAndImm dr sr1 imm5 s
  | .not dr sr => Sys2Proof.Machine.execNot dr sr s
  | .br n z p offset9 => Sys2Proof.Machine.execBr n z p offset9 s
  | .jmp baseR => Sys2Proof.Machine.execJmp baseR s
  | .jsr offset11 => Sys2Proof.Machine.execJsr offset11 s
  | .jsrr baseR => Sys2Proof.Machine.execJsrr baseR s
  | .ld dr offset9 => Sys2Proof.Machine.execLd dr offset9 s
  | .ldi dr offset9 => Sys2Proof.Machine.execLdi dr offset9 s
  | .ldr dr baseR offset6 => Sys2Proof.Machine.execLdr dr baseR offset6 s
  | .lea dr offset9 => Sys2Proof.Machine.execLea dr offset9 s
  | .st sr offset9 => Sys2Proof.Machine.execSt sr offset9 s
  | .sti sr offset9 => Sys2Proof.Machine.execSti sr offset9 s
  | .str sr baseR offset6 => Sys2Proof.Machine.execStr sr baseR offset6 s
  | .trapGetc => Sys2Proof.Machine.execTrapGetc s
  | .trapOut => Sys2Proof.Machine.execTrapOut s
  | .trapPuts => Sys2Proof.Machine.execTrapPuts s
  | .trapIn => Sys2Proof.Machine.execTrapIn s
  | .trapPutsp => Sys2Proof.Machine.execTrapPutsp s
  | .trapHalt => Sys2Proof.Machine.execTrapHalt s
  | .trapUnknown unused trapvect8 => Sys2Proof.Machine.execTrapUnknown unused trapvect8 s
  | .reserved1000 unused => Sys2Proof.Machine.execReserved1000 unused s
  | .reserved1101 unused => Sys2Proof.Machine.execReserved1101 unused s

end Sys2Proof.Machine
end

