-- ==== Sys2Proof/Machine/Cycle.lean ====
section
/-! DEFINITION. The instruction cycle (spec/30_encoding.md R80) in each of the three run states (spec/10_state.md R33). -/

namespace Sys2Proof.Machine

/-- The fetch: `ir <- MemRead(pc)`, then `pc <- pc + 1` (R80, spec/10_state.md R24). -/
def fetch (s : State) : Word × State :=
  let read := readInStep s.pc s
  (read.1, read.2.setPc (read.2.pc + 1#16))

/-- A step while RUNNING (R80). -/
def cycleRunning (s : State) : Host.Outcome State Fault Refusal :=
  let fetched := fetch s
  exec (decodeWord fetched.1) fetched.2

/-- No step is taken in HALTED: the final state stays (R33, spec/44_trap.md R158; log entry 14). -/
def cycleHalted (s : State) : Host.Outcome State Fault Refusal := .next s

/-- No step is taken in FAULTED, and it is never a final state (spec/60_exceptions.md R172, R184; log entry 13). -/
def cycleFaulted (s : State) : Host.Outcome State Fault Refusal := .fault (.faulted s.faultRec)

/-- "A step is taken only while `run = RUNNING`" (R33). -/
def cycle (s : State) : Host.Outcome State Fault Refusal :=
  match s.run with
  | .running => cycleRunning s
  | .halted => cycleHalted s
  | .faulted => cycleFaulted s

/-- The state with the word whose bits are `w` stored at `pc`, the address the next step fetches from
(log entry 32). -/
def placeFetchWord (s : State) (_nbits w : Nat) : State :=
  { s with mem := s.mem.setWord s.pc (BitVec.ofNat 16 w) }

end Sys2Proof.Machine
end

