-- ==== Sys2Proof/Machine/Boot.lean ====
section
/-! DEFINITION. Reset and boot (spec/70_reset_and_hazards.md R190 to R195): the program image, its load, and the state when
`run` becomes RUNNING. This is how a program comes to run (log entry 5). -/

namespace Sys2Proof.Machine

/-- The words of a list of bytes, each with its high byte first (R194); none for an odd number of bytes. -/
def wordsOfBytes : List Byte → Option (List Word)
  | [] => some []
  | [_] => none
  | hi :: lo :: rest =>
    match wordsOfBytes rest with
    | some ws => some ((hi ++ lo) :: ws)
    | none => none

/-- The bytes of an image file (R194): the origin word, then the payload, each word with its high byte first. -/
def imageBytes (origin : Word) (payload : List Word) : List Byte :=
  (origin :: payload).flatMap (fun w => [highByte w, lowByte w])

/-- The payload stored plainly at `a`, `a + 1`, and so on (R194). -/
def loadWords (m : Memory) (a : Word) : List Word → Memory
  | [] => m
  | w :: ws => loadWords (m.setWord a w) (a + 1#16) ws

/-- Load and release reset (R190, R194, R195): the state of R40 for the image, or a refusal of an image that the host must
not present (log entry 27). `pending` and `arrivals` are what the environment supplies (R36, R40). -/
def boot (cfg : Config) (pending : List Byte) (arrivals : List (List Byte)) (image : List Byte) :
    Host.Outcome State Fault Refusal :=
  if cfg.kbsr = cfg.kbdr then .refused .keyboardWordsCoincide
  else if image.length < 2 then .refused .imageWithoutOrigin
  else
    match wordsOfBytes image with
    | none => .refused .imageOfOddLength
    | some [] => .refused .imageWithoutOrigin
    | some (origin :: payload) =>
      if origin.toNat + payload.length ≤ 65536 then
        .next (State.resetWith cfg origin (loadWords [] origin payload) pending arrivals)
      else .refused .imageTooLarge

end Sys2Proof.Machine
end

