-- ==== Sys2Proof/Safety.lean ====
section
/-! DEFINITION. The terms claims use: the ends of a run (spec/60_exceptions.md R184), the invariant of the machine, and
what an instruction leaves unchanged. -/

namespace Sys2Proof.Machine

/-- The successful end of a run (R184, spec/70_reset_and_hazards.md R198). -/
abbrev State.Final (s : State) : Prop := s.run = .halted

/-- A fault: never final (R184). -/
abbrev State.Faulted (s : State) : Prop := s.run = .faulted

/-- The word the next step fetches. -/
def State.fetchedWord (s : State) : Word := (fetch s).1

/-- The state in which the next step executes the fetched word: input delivered, word read, `pc` incremented. -/
def State.fetchedState (s : State) : State := (fetch s).2

/-- The two instructions that can wait (spec/44_trap.md R163). -/
abbrev readsKeyboard (i : Instr) : Prop := i = .trapGetc ∨ i = .trapIn

/-- Waiting for input (R184): RUNNING, at a GETC or IN, with nothing pending once the input that comes
before the fetch has arrived. -/
abbrev State.Waiting (s : State) : Prop :=
  s.run = .running ∧ readsKeyboard (decodeWord s.fetchedWord) ∧ kbdPoll (deliver s) = false

/-- The cause that an instruction raises, for the illegal ones (spec/60_exceptions.md R170). -/
def illegalReason : Instr → Option IllegalReason
  | .trapUnknown _ _ => some .unknownTrapVector
  | .reserved1000 _ => some .reservedOpcode
  | .reserved1101 _ => some .reservedOpcode
  | .addReg _ _ _ => none
  | .addImm _ _ _ => none
  | .andReg _ _ _ => none
  | .andImm _ _ _ => none
  | .not _ _ => none
  | .br _ _ _ _ => none
  | .jmp _ => none
  | .jsr _ => none
  | .jsrr _ => none
  | .ld _ _ => none
  | .ldi _ _ => none
  | .ldr _ _ _ => none
  | .lea _ _ => none
  | .st _ _ => none
  | .sti _ _ => none
  | .str _ _ _ => none
  | .trapGetc => none
  | .trapOut => none
  | .trapPuts => none
  | .trapIn => none
  | .trapPutsp => none
  | .trapHalt => none

/-- The machine's invariant: memory in its canonical form, the two keyboard addresses different (spec/00_scope.md R6), and a
fault record exactly in FAULTED, holding an illegal word with its own cause (spec/60_exceptions.md R170 to R172). -/
structure State.Inv (s : State) : Prop where
  memory : s.mem.wf
  config : s.cfg.wf
  recorded : s.run = .faulted ↔ s.faultRec ≠ none
  truthful : ∀ r, s.faultRec = some r → illegalReason (decodeWord r.ir) = some r.reason

/-! ### What stays unchanged from `s` to `t` -/

/-- `cond` is what R29 says of the word: exactly one state, told by bit 15 and by zero. -/
def CondReflects (v : Word) (c : Cond) : Prop :=
  (c = .n ↔ v.getLsbD 15 = true) ∧ (c = .z ↔ v = 0x0000#16) ∧ (c = .p ↔ v.getLsbD 15 = false ∧ v ≠ 0x0000#16)

/-- Every register but `d` is unchanged. -/
def RegsSameBut (d : Reg) (s t : State) : Prop := ∀ r, r ≠ d → t.reg r = s.reg r

/-- Every register is unchanged. -/
def RegsSame (s t : State) : Prop := ∀ r, t.reg r = s.reg r

/-- The run state, the fault record and the model's own fields are unchanged. -/
def ControlSame (s t : State) : Prop :=
  t.run = s.run ∧ t.faultRec = s.faultRec ∧ t.arrivals = s.arrivals ∧ t.cfg = s.cfg

/-- Every byte of memory is unchanged. -/
def MemSame (s t : State) : Prop := ∀ k, t.mem.byteAt k = s.mem.byteAt k

/-- Every byte of memory outside the word at `a` is unchanged. -/
def MemSameBut (a : Word) (s t : State) : Prop :=
  ∀ k, k ≠ highCell a → k ≠ lowCell a → t.mem.byteAt k = s.mem.byteAt k

/-- The pending input and the output are unchanged. -/
def DevicesSame (s t : State) : Prop := t.kbdQ = s.kbdQ ∧ t.conOut = s.conOut

/-- Nothing but the destination register and `cond` differs. -/
def OnlyResultChanges (d : Reg) (s t : State) : Prop :=
  RegsSameBut d s t ∧ t.pc = s.pc ∧ ControlSame s t ∧ MemSame s t ∧ DevicesSame s t

/-- Nothing but `pc` differs. -/
def OnlyPcChanges (s t : State) : Prop :=
  RegsSame s t ∧ t.cond = s.cond ∧ ControlSame s t ∧ MemSame s t ∧ DevicesSame s t

/-- Nothing but `pc` and one register differs. -/
def OnlyPcAndRegChange (d : Reg) (s t : State) : Prop :=
  RegsSameBut d s t ∧ t.cond = s.cond ∧ ControlSame s t ∧ MemSame s t ∧ DevicesSame s t

/-- Nothing but the word of memory at `a` differs. -/
def OnlyWordChanges (a : Word) (s t : State) : Prop :=
  RegsSame s t ∧ t.pc = s.pc ∧ t.cond = s.cond ∧ ControlSame s t ∧ MemSameBut a s t ∧ DevicesSame s t

/-- Nothing but the output differs. -/
def OnlyOutputChanges (s t : State) : Prop :=
  RegsSame s t ∧ t.pc = s.pc ∧ t.cond = s.cond ∧ ControlSame s t ∧ MemSame s t ∧ t.kbdQ = s.kbdQ

/-- The machine has entered FAULTED with this record, and nothing else differs (spec/60_exceptions.md R172). -/
def FaultEntered (reason : IllegalReason) (ir : Word) (s t : State) : Prop :=
  t.run = .faulted ∧ t.faultRec = some ⟨reason, ir⟩ ∧ RegsSame s t ∧ t.pc = s.pc ∧ t.cond = s.cond ∧
    MemSame s t ∧ DevicesSame s t ∧ t.arrivals = s.arrivals ∧ t.cfg = s.cfg

/-! ### What an instruction may write -/

/-- The register whose write is followed by `setcc`: the seven instructions of spec/10_state.md R30. -/
def flagDestination : Instr → Option Reg
  | .addReg dr _ _ => some dr
  | .addImm dr _ _ => some dr
  | .andReg dr _ _ => some dr
  | .andImm dr _ _ => some dr
  | .not dr _ => some dr
  | .br _ _ _ _ => none
  | .jmp _ => none
  | .jsr _ => none
  | .jsrr _ => none
  | .ld dr _ => some dr
  | .ldi dr _ => some dr
  | .ldr dr _ _ => some dr
  | .lea dr _ => some dr
  | .st _ _ => none
  | .sti _ _ => none
  | .str _ _ _ => none
  | .trapGetc => none
  | .trapOut => none
  | .trapPuts => none
  | .trapIn => none
  | .trapPutsp => none
  | .trapHalt => none
  | .trapUnknown _ _ => none
  | .reserved1000 _ => none
  | .reserved1101 _ => none

/-- The register written, by the table of spec/10_state.md R21. -/
def writtenRegister (i : Instr) : Option Reg :=
  match i with
  | .jsr _ => some .r7
  | .jsrr _ => some .r7
  | .trapGetc => some .r0
  | .trapIn => some .r0
  | i => flagDestination i

/-- The address a store instruction writes (spec/43_stores.md), in the state after the fetch. -/
def storeAddress (i : Instr) (s : State) : Option Word :=
  match i with
  | .st _ off => some (pcRelative9 off s)
  | .sti _ off => some (readInStep (pcRelative9 off s) s).1
  | .str _ b off => some (basePlusOffset b off s)
  | _ => none

/-- The addresses an instruction reads through the memory interface after its fetch, in order (spec/20_memory.md R54, R62),
in the state after the fetch. The scans of PUTS and PUTSP are plain reads and no part of it. -/
def interfaceReads (i : Instr) (s : State) : List Word :=
  match i with
  | .ld _ off => [pcRelative9 off s]
  | .ldi _ off => [pcRelative9 off s, (readInStep (pcRelative9 off s) s).1]
  | .ldr _ b off => [basePlusOffset b off s]
  | .sti _ off => [pcRelative9 off s]
  | _ => []

/-- How many characters a step can take at most: one for each read of the status address, its fetch among them, and one for
GETC and IN (spec/20_memory.md R55 (a), spec/44_trap.md R153, R156). -/
def maxTaken (i : Instr) (s t : State) : Nat :=
  (s.pc :: interfaceReads i t).count s.cfg.kbsr + if readsKeyboard i then 1 else 0

/-- The register a store instruction stores. -/
def storedRegister : Instr → Option Reg
  | .st r _ => some r
  | .sti r _ => some r
  | .str r _ _ => some r
  | _ => none

/-- Where each instruction leaves `pc` (spec/10_state.md R25), for `s` after the fetch, a wait apart. -/
def pcAfter (i : Instr) (s : State) : Word :=
  match i with
  | .br n z p off =>
    if (n = true ∧ s.cond = .n) ∨ (z = true ∧ s.cond = .z) ∨ (p = true ∧ s.cond = .p) then s.pc + sext off else s.pc
  | .jmp b => s.reg b
  | .jsr off => s.pc + sext off
  | .jsrr b => if b = .r7 then s.pc else s.reg b
  | _ => s.pc

/-- Byte `j` of the packed string at `a`: low byte first, then high byte, word after word (spec/44_trap.md R157). -/
def packedByte (m : Memory) (a : Word) (j : Nat) : Byte :=
  if j % 2 = 0 then lowByte (m.word (a + BitVec.ofNat 16 (j / 2)))
  else highByte (m.word (a + BitVec.ofNat 16 (j / 2)))

end Sys2Proof.Machine
end

