-- ==== Sys2Proof/Certificates/Slice0/Obligations.lean ====
section
/-! DEFINITION. The statements for the provers. In a statement about one instruction, `s` is the state after the fetch, so
`s.pc` is the incremented pc; the first clause says which words are the instruction's, by the fields of spec/30_encoding.md
R85 to R93, and the second what it does to every state and what it leaves alone. The numbers of the opcodes and the places of
the fields are the spec's decisions D1 and D2 (log entries 8 and 9). -/

open Sys2Proof Sys2Proof.Machine

/-! ### Primitives -/

/-- R9: sign extension of a field of `n` bits, by its bits, by its unsigned value and by its signed value. -/
def SignExtends (n : Nat) : Prop :=
  ∀ v : BitVec n,
    (∀ i < 16, (sext v).getLsbD i = if i < n then v.getLsbD i else v.getLsbD (n - 1)) ∧
    (sext v).toNat = (if v.getLsbD (n - 1) then v.toNat + 65536 - 2 ^ n else v.toNat) ∧
    (sext v).toInt = v.toInt

/-- R9, with the source's example. -/
def Obligations.SignExtensionFillsTheHighBits : Prop :=
  SignExtends 5 ∧ SignExtends 6 ∧ SignExtends 9 ∧ SignExtends 11 ∧ sext 0b10001#5 = 0xFFF1#16

/-- R29, R13: `setcc` reads the register now, and changes nothing but `cond`. -/
def Obligations.SetccTellsTheSignOfTheRegister : Prop :=
  ∀ (r : Reg) (s : State),
    CondReflects (s.reg r) (setcc r s).cond ∧
    RegsSame s (setcc r s) ∧ (setcc r s).pc = s.pc ∧ ControlSame s (setcc r s) ∧
    MemSame s (setcc r s) ∧ DevicesSame s (setcc r s)

/-- R20: eight registers of which a write to one never changes another, and none of which is hardwired. -/
def Obligations.RegistersAreIndependent : Prop :=
  ∀ (s : State) (r : Reg) (v : Word), (s.setReg r v).reg r = v ∧ RegsSameBut r s (s.setReg r v)

/-- R52: the three outcomes of a read. That a ready read stores the whole word 0x8000 and takes the character is the spec's
decision D13 (log entry 15). -/
def Obligations.ReadPollsOnlyAtTheStatusAddress : Prop :=
  ∀ s : State,
    (∀ a, a ≠ s.cfg.kbsr → memRead a s = (s.mem.word a, s)) ∧
    (s.cfg.wf → ∀ c q, s.kbdQ = c :: q →
      (memRead s.cfg.kbsr s).1 = 0x8000#16 ∧
      (memRead s.cfg.kbsr s).2.mem.word s.cfg.kbsr = 0x8000#16 ∧
      ((memRead s.cfg.kbsr s).2.mem.word s.cfg.kbdr).toNat = c.toNat ∧
      (∀ b, b ≠ s.cfg.kbsr → b ≠ s.cfg.kbdr → (memRead s.cfg.kbsr s).2.mem.word b = s.mem.word b) ∧
      (memRead s.cfg.kbsr s).2.kbdQ = q) ∧
    (s.kbdQ = [] →
      (memRead s.cfg.kbsr s).1 = 0x0000#16 ∧
      (memRead s.cfg.kbsr s).2.mem.word s.cfg.kbsr = 0x0000#16 ∧
      MemSameBut s.cfg.kbsr s (memRead s.cfg.kbsr s).2 ∧
      (memRead s.cfg.kbsr s).2.kbdQ = []) ∧
    (∀ a, RegsSame s (memRead a s).2 ∧ (memRead a s).2.pc = s.pc ∧ (memRead a s).2.cond = s.cond ∧
      ControlSame s (memRead a s).2 ∧ (memRead a s).2.conOut = s.conOut)

/-- R53: a store at any address, the keyboard words among them, changes that word and nothing else, and a value stored at
the status address is gone at the next read of it, while one stored at the data address is read back. That the next status
read overwrites the whole word is the spec's decision D13 (log entry 15). -/
def Obligations.WriteStoresPlainlyEverywhere : Prop :=
  ∀ (a v : Word) (s : State),
    (memWrite a v s).mem.word a = v ∧ OnlyWordChanges a s (memWrite a v s) ∧
    (s.cfg.wf → (memRead s.cfg.kbsr (memWrite s.cfg.kbsr v s)).1 = (memRead s.cfg.kbsr s).1) ∧
    (s.cfg.wf → (memRead s.cfg.kbdr (memWrite s.cfg.kbdr v s)).1 = v) ∧
    (s.cfg.wf → s.kbdQ = [] →
      (memRead s.cfg.kbsr (memWrite s.cfg.kbdr v s)).2.mem.word s.cfg.kbdr = v)

/-- R55 (a), (b), (c): the character of a ready status read is in the data word until the next ready status read replaces
it; a second read loses it. Rests on the spec's decision D13 (log entry 15). -/
def Obligations.SecondStatusReadLosesTheFirstCharacter : Prop :=
  ∀ (s : State) (c d : Byte) (q : List Byte), s.cfg.wf → s.kbdQ = c :: d :: q →
    let first := (memRead s.cfg.kbsr s).2
    let second := memRead s.cfg.kbsr first
    memRead s.cfg.kbdr first = (zext16 c, first) ∧
    second.1 = 0x8000#16 ∧ memRead s.cfg.kbdr second.2 = (zext16 d, second.2) ∧ second.2.kbdQ = q

/-- Equal memories are equal data: in the canonical form, two memories that hold the same words are the same list (log
entries 1 and 2). -/
def Obligations.MemoriesOfEqualWordsAreEqual : Prop :=
  ∀ m n : Memory, m.wf → n.wf → (∀ a : Word, m.word a = n.word a) → m = n

/-! ### Encoding -/

/-- Words written out from the spec's formats, and the instructions they stand for (R85 to R93; the spec's decisions D1, D2
and D5, log entries 8, 9 and 12). -/
def Obligations.WrittenOutWordsDecode : Prop :=
  decodeWord 0b0001_000_001_1_00001#16 = .addImm .r0 .r1 0b00001#5 ∧
  decodeWord 0b0101_010_010_1_10001#16 = .andImm .r2 .r2 0b10001#5 ∧
  decodeWord 0b1001_001_010_111111#16 = .not .r1 .r2 ∧
  decodeWord 0b0000_010_000000101#16 = .br false true false 0b000000101#9 ∧
  decodeWord 0b1100_000_111_000000#16 = .jmp .r7 ∧
  decodeWord 0b0100_1_00000000101#16 = .jsr 0b00000000101#11 ∧
  decodeWord 0b0110_001_010_111111#16 = .ldr .r1 .r2 0b111111#6 ∧
  decodeWord 0b1011_001_000000001#16 = .sti .r1 0b000000001#9 ∧
  decodeWord 0b1111_0000_00100101#16 = .trapHalt ∧
  decodeWord 0b1111_0000_00100110#16 = .trapUnknown 0b0000#4 0b00100110#8

/-- Decode and encode agree on every well-formed instruction, with every operand at every value. -/
def Obligations.DecodeOfEncodeIsTheInstruction : Prop :=
  ∀ i : Instr, i.wellFormed = true → decodeWord (encode i) = i

/-- Every word decodes to a well-formed instruction, and the encoder gives the word back, the ignored bits apart. -/
def Obligations.EncodeOfDecodeKeepsEveryReadBit : Prop :=
  ∀ w : Word,
    (decodeWord w).wellFormed = true ∧
    encode (decodeWord w) &&& ~~~(decodeWord w).ignoredBits = w &&& ~~~(decodeWord w).ignoredBits

/-- R95: words that differ only in ignored bits are one instruction. That these bits are ignored is the spec's decision D3
(log entry 10). -/
def Obligations.IgnoredBitsDoNotMatter : Prop :=
  ∀ w v : Word, w &&& ~~~(decodeWord w).ignoredBits = v &&& ~~~(decodeWord w).ignoredBits →
    decodeWord v = decodeWord w

/-- R97: the decoder selects, for every word, the first row of the opcode table that the word matches. The table's numbers
are the spec's decisions D1, D2 and D5 (log entries 8, 9 and 12). -/
def Obligations.DecodeSelectsTheFirstMatchingRow : Prop :=
  ∀ w : Word, firstRow w = some (decodeWord w).tableRow

/-- R96: exactly these words raise IllegalOpcode. The numbers are the spec's decisions D1 and D5, FAULTED its decision D10
(log entries 8, 12 and 13); that no other word does rests on the decisions D3 and D11 (log entries 10 and 29); that a step
waiting at a GETC or IN answers a next state, where R153 says it is not enabled, is the model's choice (log entry 25). -/
def Obligations.ExactlyTheIllegalWordsFault : Prop :=
  ∀ s : State, s.run = .running →
    ∃ t, step s = .next t ∧
      (t.run = .faulted ↔
        (0x8000 ≤ s.fetchedWord.toNat ∧ s.fetchedWord.toNat ≤ 0x8FFF) ∨
        (0xD000 ≤ s.fetchedWord.toNat ∧ s.fetchedWord.toNat ≤ 0xDFFF) ∨
        (0xF000 ≤ s.fetchedWord.toNat ∧
          ¬(0x20 ≤ s.fetchedWord.toNat % 256 ∧ s.fetchedWord.toNat % 256 ≤ 0x25)))

/-! ### The step -/

/-- R24, R80: the word at `pc` is read, `pc` is incremented, and then the instruction the word decodes to is executed. What
the environment delivers before the fetch begins comes from the schedule, which is the model's own (log entry 26). -/
def Obligations.StepRunsTheDecodedInstruction : Prop :=
  ∀ s : State, s.run = .running →
    step s = exec (decodeWord (memRead s.pc (deliver s)).1)
      ((memRead s.pc (deliver s)).2.setPc (s.pc + 1#16)) ∧
    (s.pc ≠ s.cfg.kbsr → ∀ i,
      decodeBytes [s.mem.byteAt (highCell s.pc), s.mem.byteAt (lowCell s.pc)] = .ok (i, []) →
      step s = exec i ((deliver s).setPc (s.pc + 1#16)))

/-- R33: no step is taken in HALTED or FAULTED. That a step from HALTED answers the same state and one from FAULTED the
model's fault is the model's choice (log entries 13 and 14). -/
def Obligations.StoppedMachineTakesNoStep : Prop :=
  ∀ s : State, (s.run = .halted → step s = .next s) ∧
    (s.run = .faulted → step s = .fault (.faulted s.faultRec))

/-- R33, R80: a running machine's step answers a next state, halted exactly when the instruction is TRAP HALT. That it
answers a next state also at a waiting GETC or IN, whose step R163 calls disabled, and at an illegal word is the model's
choice (log entries 25 and 13); that no trap falls into the abort path is the spec's decision D11 (log entry 29). -/
def Obligations.OnlyTheHaltTrapHalts : Prop :=
  ∀ s : State, s.run = .running →
    ∃ t, step s = .next t ∧ (t.run = .halted ↔ decodeWord s.fetchedWord = .trapHalt)

/-- R25: how each instruction leaves `pc`, a wait apart (WaitingStepChangesNothing), and that no fetch follows HALT. That
JSRR R7 falls through is the spec's decision D22, which bit of BR tests which state D4, that the sums wrap D21, and the
incremented `pc` of a faulting word D28 (log entries 24, 11, 23 and 13); that a step of the halted machine answers the same
state is the model's choice (log entry 14). -/
def Obligations.ProgramCounterAfterEachInstruction : Prop :=
  ∀ s : State, s.run = .running → ¬ s.Waiting →
    s.fetchedState.pc = s.pc + 1#16 ∧
    ∃ t, step s = .next t ∧ t.pc = pcAfter (decodeWord s.fetchedWord) s.fetchedState ∧
      (decodeWord s.fetchedWord = .trapHalt → step t = .next t)

/-- R163, R80: a step that waits changes nothing but what the environment delivers. That the model's step answers a next
state then is its choice (log entry 25). -/
def Obligations.WaitingStepChangesNothing : Prop :=
  ∀ s : State, s.Waiting → step s = .next (deliver s)

/-- Every instruction runs in every state: no meaning faults or refuses (R170: no other condition raises an exception). That
an illegal word's entry of FAULTED and a waiting GETC or IN are next states is the model's choice (log entries 13 and 25).
-/
def Obligations.EveryInstructionAnswersANextState : Prop :=
  ∀ (i : Instr) (s : State), ∃ t, exec i s = .next t

/-! ### ADD, AND, NOT -/

/-- R110: the sum modulo 2^16 and its flag, and nothing else. The place of SR2 is the spec's decision D2 (log entry 9). -/
def Obligations.AddRegisterForm : Prop :=
  (∀ w : Word, bits w 12 4 = 0b0001#4 → w.getLsbD 5 = false →
    decodeWord w = .addReg (regField w 9) (regField w 6) (regField w 0)) ∧
  ∀ (d a b : Reg) (s : State), ∃ t, exec (.addReg d a b) s = .next t ∧
    (t.reg d).toNat = ((s.reg a).toNat + (s.reg b).toNat) % 65536 ∧
    CondReflects (t.reg d) t.cond ∧ OnlyResultChanges d s t

/-- R111: the sum of a register and the sign-extended immediate, its flag, and nothing else. -/
def Obligations.AddImmediateForm : Prop :=
  (∀ w : Word, bits w 12 4 = 0b0001#4 → w.getLsbD 5 = true →
    decodeWord w = .addImm (regField w 9) (regField w 6) (bits w 0 5)) ∧
  ∀ (d a : Reg) (imm : BitVec 5) (s : State), ∃ t, exec (.addImm d a imm) s = .next t ∧
    (t.reg d).toNat = ((s.reg a).toNat + (sext imm).toNat) % 65536 ∧
    CondReflects (t.reg d) t.cond ∧ OnlyResultChanges d s t

/-- R112: bit by bit over 16 bits, the flag, and nothing else. The place of SR2 is the spec's decision D2 (log entry 9). -/
def Obligations.AndRegisterForm : Prop :=
  (∀ w : Word, bits w 12 4 = 0b0101#4 → w.getLsbD 5 = false →
    decodeWord w = .andReg (regField w 9) (regField w 6) (regField w 0)) ∧
  ∀ (d a b : Reg) (s : State), ∃ t, exec (.andReg d a b) s = .next t ∧
    (∀ i, (t.reg d).getLsbD i = ((s.reg a).getLsbD i && (s.reg b).getLsbD i)) ∧
    CondReflects (t.reg d) t.cond ∧ OnlyResultChanges d s t

/-- R113: bit by bit with the sign-extended immediate, the flag, and nothing else. The places of the fields are the spec's
decision D2 (log entry 9); the source's own literal for this form is wrong (spec/90_conflicts.md C2). -/
def Obligations.AndImmediateForm : Prop :=
  (∀ w : Word, bits w 12 4 = 0b0101#4 → w.getLsbD 5 = true →
    decodeWord w = .andImm (regField w 9) (regField w 6) (bits w 0 5)) ∧
  ∀ (d a : Reg) (imm : BitVec 5) (s : State), ∃ t, exec (.andImm d a imm) s = .next t ∧
    (∀ i, (t.reg d).getLsbD i = ((s.reg a).getLsbD i && (sext imm).getLsbD i)) ∧
    CondReflects (t.reg d) t.cond ∧ OnlyResultChanges d s t

/-- R114: each of the 16 bits inverted, the flag, and nothing else. The opcode number is the spec's decision D1 and the
places of the fields D2 (log entries 8 and 9). -/
def Obligations.NotInvertsEachBit : Prop :=
  (∀ w : Word, bits w 12 4 = 0b1001#4 → decodeWord w = .not (regField w 9) (regField w 6)) ∧
  ∀ (d a : Reg) (s : State), ∃ t, exec (.not d a) s = .next t ∧
    (t.reg d).toNat = 0xFFFF - (s.reg a).toNat ∧
    CondReflects (t.reg d) t.cond ∧ OnlyResultChanges d s t

/-! ### BR, JMP, JSR, JSRR -/

/-- R120: the branch is taken or not, and `cond` is read and not written. The opcode number, the places of the fields and
which bit tests which state are the spec's decisions D1, D2 and D4 (log entries 8, 9 and 11). -/
def Obligations.BranchIsTakenOnItsCondition : Prop :=
  (∀ w : Word, bits w 12 4 = 0b0000#4 →
    decodeWord w = .br (w.getLsbD 11) (w.getLsbD 10) (w.getLsbD 9) (bits w 0 9)) ∧
  ∀ (n z p : Bool) (off : BitVec 9) (s : State), ∃ t, exec (.br n z p off) s = .next t ∧
    ((n = true ∧ s.cond = .n) ∨ (z = true ∧ s.cond = .z) ∨ (p = true ∧ s.cond = .p) → t.pc = s.pc + sext off) ∧
    (¬((n = true ∧ s.cond = .n) ∨ (z = true ∧ s.cond = .z) ∨ (p = true ∧ s.cond = .p)) → t.pc = s.pc) ∧
    OnlyPcChanges s t

/-- R121: the jump, and nothing but `pc` changed. The opcode number is the spec's decision D1 and the places of the fields
D2 (log entries 8 and 9). -/
def Obligations.JumpGoesToTheBaseRegister : Prop :=
  (∀ w : Word, bits w 12 4 = 0b1100#4 → decodeWord w = .jmp (regField w 6)) ∧
  ∀ (b : Reg) (s : State), ∃ t, exec (.jmp b) s = .next t ∧ t.pc = s.reg b ∧ OnlyPcChanges s t

/-- R122: the link, the jump, and nothing else changed. The opcode number is the spec's decision D1 and the places of the
fields D2 (log entries 8 and 9). -/
def Obligations.JsrLinksAndJumpsRelative : Prop :=
  (∀ w : Word, bits w 12 4 = 0b0100#4 → w.getLsbD 11 = true → decodeWord w = .jsr (bits w 0 11)) ∧
  ∀ (off : BitVec 11) (s : State), ∃ t, exec (.jsr off) s = .next t ∧
    t.reg .r7 = s.pc ∧ t.pc = s.pc + sext off ∧ OnlyPcAndRegChange .r7 s t

/-- R123: the link register is written before the base register is read. That JSRR R7 therefore falls through is the spec's
decision D22 (log entry 24); the opcode number is its decision D1 and the places of the fields D2 (log entries 8 and 9). -/
def Obligations.JsrrLinksThenReadsTheBase : Prop :=
  (∀ w : Word, bits w 12 4 = 0b0100#4 → w.getLsbD 11 = false → decodeWord w = .jsrr (regField w 6)) ∧
  ∀ (b : Reg) (s : State), ∃ t, exec (.jsrr b) s = .next t ∧
    t.reg .r7 = s.pc ∧ (b ≠ .r7 → t.pc = s.reg b) ∧ (b = .r7 → t.pc = s.pc) ∧ OnlyPcAndRegChange .r7 s t

/-! ### LD, LDI, LDR, LEA -/

/-- R130, R67: the word read at `pc + sext_9(PCoffset9)`, its flag, and nothing else but what arrives before the read and
what the read does. The opcode number is the spec's decision D1 and the places of the fields D2 (log entries 8 and 9); what
arrives before a read is the schedule's, the model's own (log entry 26). -/
def Obligations.LoadPcRelative : Prop :=
  (∀ w : Word, bits w 12 4 = 0b0010#4 → decodeWord w = .ld (regField w 9) (bits w 0 9)) ∧
  ∀ (d : Reg) (off : BitVec 9) (s : State), ∃ t, exec (.ld d off) s = .next t ∧
    t.reg d = (readInStep (s.pc + sext off) s).1 ∧ CondReflects (t.reg d) t.cond ∧
    OnlyResultChanges d (readInStep (s.pc + sext off) s).2 t ∧
    (s.pc + sext off ≠ s.cfg.kbsr → t.reg d = s.mem.word (s.pc + sext off) ∧ OnlyResultChanges d (deliver s) t)

/-- R131, R67: the two reads in order, input arriving before each, the flag of the second, and nothing else but what arrives
and what the reads do. The opcode number is the spec's decision D1 and the places of the fields D2 (log entries 8 and 9);
what arrives before a read is the schedule's, the model's own (log entry 26). -/
def Obligations.LoadIndirect : Prop :=
  (∀ w : Word, bits w 12 4 = 0b1010#4 → decodeWord w = .ldi (regField w 9) (bits w 0 9)) ∧
  ∀ (d : Reg) (off : BitVec 9) (s : State), ∃ t, exec (.ldi d off) s = .next t ∧
    (let pointer := readInStep (s.pc + sext off) s
     t.reg d = (readInStep pointer.1 pointer.2).1 ∧ CondReflects (t.reg d) t.cond ∧
     OnlyResultChanges d (readInStep pointer.1 pointer.2).2 t) ∧
    (s.pc + sext off ≠ s.cfg.kbsr → s.mem.word (s.pc + sext off) ≠ s.cfg.kbsr →
      t.reg d = s.mem.word (s.mem.word (s.pc + sext off)) ∧ OnlyResultChanges d (deliver (deliver s)) t)

/-- R132, R67: the word read at `x[BaseR] + sext_6(offset6)`, its flag, and nothing else but what arrives before the read
and what the read does. The opcode number is the spec's decision D1 and the places of the fields D2 (log entries 8 and 9);
what arrives before a read is the schedule's, the model's own (log entry 26). -/
def Obligations.LoadBasePlusOffset : Prop :=
  (∀ w : Word, bits w 12 4 = 0b0110#4 → decodeWord w = .ldr (regField w 9) (regField w 6) (bits w 0 6)) ∧
  ∀ (d b : Reg) (off : BitVec 6) (s : State), ∃ t, exec (.ldr d b off) s = .next t ∧
    t.reg d = (readInStep (s.reg b + sext off) s).1 ∧ CondReflects (t.reg d) t.cond ∧
    OnlyResultChanges d (readInStep (s.reg b + sext off) s).2 t ∧
    (s.reg b + sext off ≠ s.cfg.kbsr → t.reg d = s.mem.word (s.reg b + sext off) ∧ OnlyResultChanges d (deliver s) t)

/-- R133: the address, its flag, and no read. The opcode number is the spec's decision D1 and the places of the fields D2
(log entries 8 and 9). -/
def Obligations.LoadEffectiveAddressSetsTheFlags : Prop :=
  (∀ w : Word, bits w 12 4 = 0b1110#4 → decodeWord w = .lea (regField w 9) (bits w 0 9)) ∧
  ∀ (d : Reg) (off : BitVec 9) (s : State), ∃ t, exec (.lea d off) s = .next t ∧
    t.reg d = s.pc + sext off ∧ CondReflects (t.reg d) t.cond ∧ OnlyResultChanges d s t

/-! ### ST, STI, STR -/

/-- R140: the word stored at `pc + sext_9(PCoffset9)`, and every other byte of memory as before. The opcode number is the
spec's decision D1 and the places of the fields D2 (log entries 8 and 9). -/
def Obligations.StorePcRelative : Prop :=
  (∀ w : Word, bits w 12 4 = 0b0011#4 → decodeWord w = .st (regField w 9) (bits w 0 9)) ∧
  ∀ (r : Reg) (off : BitVec 9) (s : State), ∃ t, exec (.st r off) s = .next t ∧
    t.mem.word (pcRelative9 off s) = s.reg r ∧ pcRelative9 off s = s.pc + sext off ∧
    OnlyWordChanges (pcRelative9 off s) s t

/-- R141, R67: what arrives, the pointer read, then the word stored at the address it gave; unless the pointer lies at the
status address, nothing else but what arrives. The opcode number is the spec's decision D1 and the places of the fields D2
(log entries 8 and 9); what arrives before a read is the schedule's, the model's own (log entry 26). -/
def Obligations.StoreIndirect : Prop :=
  (∀ w : Word, bits w 12 4 = 0b1011#4 → decodeWord w = .sti (regField w 9) (bits w 0 9)) ∧
  ∀ (r : Reg) (off : BitVec 9) (s : State), ∃ t, exec (.sti r off) s = .next t ∧
    (let pointer := readInStep (pcRelative9 off s) s
     t.mem.word pointer.1 = s.reg r ∧ pcRelative9 off s = s.pc + sext off ∧ OnlyWordChanges pointer.1 pointer.2 t) ∧
    (pcRelative9 off s ≠ s.cfg.kbsr →
      t.mem.word (s.mem.word (pcRelative9 off s)) = s.reg r ∧
      OnlyWordChanges (s.mem.word (pcRelative9 off s)) (deliver s) t)

/-- R142: the word stored at `x[BaseR] + sext_6(offset6)`, and every other byte of memory as before. The opcode number is
the spec's decision D1 and the places of the fields D2 (log entries 8 and 9). -/
def Obligations.StoreBasePlusOffset : Prop :=
  (∀ w : Word, bits w 12 4 = 0b0111#4 → decodeWord w = .str (regField w 9) (regField w 6) (bits w 0 6)) ∧
  ∀ (r b : Reg) (off : BitVec 6) (s : State), ∃ t, exec (.str r b off) s = .next t ∧
    t.mem.word (basePlusOffset b off s) = s.reg r ∧ basePlusOffset b off s = s.reg b + sext off ∧
    OnlyWordChanges (basePlusOffset b off s) s t

/-- R65 (derived by the spec from R61 and R54): a store is seen by the next fetch from its address, be it the store's own or
the next instruction's address. -/
def Obligations.NextFetchSeesTheStore : Prop :=
  ∀ (s t : State) (a : Word) (r : Reg), s.run = .running → step s = .next t → a ≠ s.cfg.kbsr →
    storeAddress (decodeWord s.fetchedWord) s.fetchedState = some a →
    storedRegister (decodeWord s.fetchedWord) = some r →
    (t.setPc a).fetchedWord = s.reg r

/-! ### TRAP and the illegal words -/

/-- R153: with a character pending; and the wait, which leaves the machine as it was but for what the environment delivers.
The vector is the spec's decision D5 and the character's width D18 (log entries 12 and 20); that the wait is a next state is
the model's choice (log entry 25). -/
def Obligations.GetcTakesTheOldestCharacter : Prop :=
  (∀ w : Word, bits w 12 4 = 0b1111#4 → bits w 0 8 = 0x20#8 → decodeWord w = .trapGetc) ∧
  (∀ (s : State) (c : Byte) (q : List Byte), s.kbdQ = c :: q → ∃ t, exec .trapGetc s = .next t ∧
    (t.reg .r0).toNat = c.toNat ∧ t.kbdQ = q ∧ t.conOut = s.conOut ∧
    RegsSameBut .r0 s t ∧ t.pc = s.pc ∧ t.cond = s.cond ∧ ControlSame s t ∧ MemSame s t) ∧
  (∀ s : State, s.run = .running → decodeWord s.fetchedWord = .trapGetc → (deliver s).kbdQ = [] →
    step s = .next (deliver s))

/-- R154: one byte emitted, and nothing else changed. The vector is the spec's decision D5 (log entry 12). -/
def Obligations.OutEmitsTheLowByte : Prop :=
  (∀ w : Word, bits w 12 4 = 0b1111#4 → bits w 0 8 = 0x21#8 → decodeWord w = .trapOut) ∧
  ∀ s : State, ∃ t, exec .trapOut s = .next t ∧
    (∃ b : Byte, t.conOut = s.conOut ++ [b] ∧ b.toNat = (s.reg .r0).toNat % 256) ∧ OnlyOutputChanges s t

/-- R155: the low bytes of the `n` words before the first zero word, or up to address 0xFFFF. The bound and the byte emitted
are the spec's decisions D15 and D16, and the vector D5 (log entries 17, 18 and 12). -/
def Obligations.PutsEmitsTheWordString : Prop :=
  (∀ w : Word, bits w 12 4 = 0b1111#4 → bits w 0 8 = 0x22#8 → decodeWord w = .trapPuts) ∧
  ∀ s : State, ∃ t n, exec .trapPuts s = .next t ∧
    t.conOut = s.conOut ++
      (List.range n).map (fun k => lowByte (s.mem.word (s.reg .r0 + BitVec.ofNat 16 k))) ∧
    (s.reg .r0).toNat + n ≤ 65536 ∧
    (∀ k < n, s.mem.word (s.reg .r0 + BitVec.ofNat 16 k) ≠ 0#16) ∧
    ((s.reg .r0).toNat + n = 65536 ∨ s.mem.word (s.reg .r0 + BitVec.ofNat 16 n) = 0#16) ∧
    OnlyOutputChanges s t

/-- R156: as GETC, with the character emitted and no prompt, which is the spec's decision D19; the vector is its decision
D5; that the wait is a next state is the model's choice (log entries 21, 12 and 25). -/
def Obligations.InEchoesTheCharacter : Prop :=
  (∀ w : Word, bits w 12 4 = 0b1111#4 → bits w 0 8 = 0x23#8 → decodeWord w = .trapIn) ∧
  (∀ (s : State) (c : Byte) (q : List Byte), s.kbdQ = c :: q → ∃ t, exec .trapIn s = .next t ∧
    (t.reg .r0).toNat = c.toNat ∧ t.kbdQ = q ∧ t.conOut = s.conOut ++ [c] ∧
    RegsSameBut .r0 s t ∧ t.pc = s.pc ∧ t.cond = s.cond ∧ ControlSame s t ∧ MemSame s t) ∧
  (∀ s : State, s.run = .running → decodeWord s.fetchedWord = .trapIn → (deliver s).kbdQ = [] →
    step s = .next (deliver s))

/-- R157: the bytes, low then high, word after word, before the first zero byte, or up to address 0xFFFF. The end of the
string is the spec's decision D17, the bound D15 and the vector D5 (log entries 19, 17 and 12). -/
def Obligations.PutspEmitsThePackedString : Prop :=
  (∀ w : Word, bits w 12 4 = 0b1111#4 → bits w 0 8 = 0x24#8 → decodeWord w = .trapPutsp) ∧
  ∀ s : State, ∃ t n, exec .trapPutsp s = .next t ∧
    t.conOut = s.conOut ++ (List.range n).map (packedByte s.mem (s.reg .r0)) ∧
    2 * (s.reg .r0).toNat + n ≤ 131072 ∧
    (∀ j < n, packedByte s.mem (s.reg .r0) j ≠ 0#8) ∧
    (2 * (s.reg .r0).toNat + n = 131072 ∨ packedByte s.mem (s.reg .r0) n = 0#8) ∧
    OnlyOutputChanges s t

/-- R158: the notice, whatever its bytes are (the spec's decision D20, log entry 7), and the end of the run. That a step of
the halted machine answers the same state is the model's choice (log entry 14). -/
def Obligations.HaltEmitsTheNoticeAndStops : Prop :=
  (∀ w : Word, bits w 12 4 = 0b1111#4 → bits w 0 8 = 0x25#8 → decodeWord w = .trapHalt) ∧
  ∀ s : State, ∃ t, exec .trapHalt s = .next t ∧
    t.run = .halted ∧ t.conOut = s.conOut ++ s.cfg.haltNotice ∧
    RegsSame s t ∧ t.pc = s.pc ∧ t.cond = s.cond ∧ MemSame s t ∧ t.kbdQ = s.kbdQ ∧
    t.faultRec = s.faultRec ∧ t.arrivals = s.arrivals ∧ t.cfg = s.cfg ∧ step t = .next t

/-- R152: what no service changes. That TRAP does not write R7 is the spec's decision D12 (log entry 22). -/
def Obligations.ServicesPreserveTheOtherRegisters : Prop :=
  ∀ (i : Instr) (s t : State),
    i = .trapGetc ∨ i = .trapOut ∨ i = .trapPuts ∨ i = .trapIn ∨ i = .trapPutsp ∨ i = .trapHalt →
    exec i s = .next t →
    RegsSameBut .r0 s t ∧ t.cond = s.cond ∧ MemSame s t ∧ t.faultRec = s.faultRec ∧ s.conOut <+: t.conOut

/-- R159: the six known vectors are the spec's decision D5 and FAULTED its decision D10 (log entries 12 and 13). -/
def Obligations.UnknownVectorFaults : Prop :=
  (∀ w : Word, bits w 12 4 = 0b1111#4 → ((bits w 0 8).toNat < 0x20 ∨ 0x25 < (bits w 0 8).toNat) →
    decodeWord w = .trapUnknown (bits w 8 4) (bits w 0 8)) ∧
  ∀ (u : BitVec 4) (v : BitVec 8) (s : State), ∃ t, exec (.trapUnknown u v) s = .next t ∧
    FaultEntered .unknownTrapVector (0b1111#4 ++ u ++ v) s t

/-- R160, R161. That 1000 and 1101 are the two reserved opcodes is the spec's decision D1, and FAULTED its decision D10 (log
entries 8 and 13). -/
def Obligations.ReservedOpcodesFault : Prop :=
  (∀ w : Word, bits w 12 4 = 0b1000#4 → decodeWord w = .reserved1000 (bits w 0 12)) ∧
  (∀ w : Word, bits w 12 4 = 0b1101#4 → decodeWord w = .reserved1101 (bits w 0 12)) ∧
  (∀ (u : BitVec 12) (s : State), ∃ t, exec (.reserved1000 u) s = .next t ∧
    FaultEntered .reservedOpcode (0b1000#4 ++ u) s t) ∧
  (∀ (u : BitVec 12) (s : State), ∃ t, exec (.reserved1101 u) s = .next t ∧
    FaultEntered .reservedOpcode (0b1101#4 ++ u) s t)

/-- R171, R172, R173: a faulting step records the very word fetched, keeps the incremented pc, has no other effect than its
fetch, and no step follows. FAULTED is the spec's decision D10 (log entry 13). -/
def Obligations.FaultIsPreciseAndRecordsTheWord : Prop :=
  ∀ (s : State) (c : IllegalReason), s.run = .running → illegalReason (decodeWord s.fetchedWord) = some c →
    ∃ t, step s = .next t ∧ FaultEntered c s.fetchedWord s.fetchedState t ∧ t.pc = s.pc + 1#16 ∧
      step t = .fault (.faulted (some ⟨c, s.fetchedWord⟩))

/-! ### Rules of the whole machine -/

/-- R30: `cond` reflects the destination after ADD, AND, NOT, LD, LDI, LDR, LEA, and no other instruction changes it; nor
does the fetch. -/
def Obligations.OnlySevenInstructionsWriteCond : Prop :=
  ∀ s t : State, s.run = .running → step s = .next t →
    (∀ d, flagDestination (decodeWord s.fetchedWord) = some d → CondReflects (t.reg d) t.cond) ∧
    (flagDestination (decodeWord s.fetchedWord) = none → t.cond = s.cond)

/-- R21 (derived by the spec from the instructions' rules): which register each instruction writes; every other keeps its
value through the whole step. -/
def Obligations.StepWritesAtMostOneRegister : Prop :=
  ∀ s t : State, s.run = .running → step s = .next t →
    ∀ r, writtenRegister (decodeWord s.fetchedWord) ≠ some r → t.reg r = s.reg r

/-- R61, R55 (d): the only writes to memory are a store instruction's, to the word it addresses, and those of a status read
to the two keyboard words: where neither the fetch nor a read of the instruction is at the status address, every word but
the stored one is unchanged, the keyboard words too. -/
def Obligations.OnlyStoresAndStatusReadsWriteMemory : Prop :=
  ∀ (s t : State) (b : Word), s.run = .running → step s = .next t →
    storeAddress (decodeWord s.fetchedWord) s.fetchedState ≠ some b →
    (b ≠ s.cfg.kbsr → b ≠ s.cfg.kbdr → t.mem.word b = s.mem.word b) ∧
    (s.pc ≠ s.cfg.kbsr → s.cfg.kbsr ∉ interfaceReads (decodeWord s.fetchedWord) s.fetchedState →
      t.mem.word b = s.mem.word b)

/-- R37: the output is append-only and the core never reads it: a machine with another output so far takes the same step and
emits the same bytes. It is empty at reset. -/
def Obligations.OutputIsAppendOnlyAndNeverRead : Prop :=
  State.reset.conOut = [] ∧
  (∀ cfg pending arrivals image t, boot cfg pending arrivals image = .next t → t.conOut = []) ∧
  ∀ s t : State, step s = .next t →
    ∃ bs, t.conOut = s.conOut ++ bs ∧
      ∀ o, step { s with conOut := o } = .next { t with conOut := o ++ bs }

/-- R36, R196, R67: what arrives is the next batch of the schedule, whole, at the end of the queue, and nothing else
changes; one batch arrives before each read that a step makes; and a step takes characters from the front only, at most one
for each status read and one for GETC or IN, and loses, adds and reorders none. The queue is the spec's decision D18 and the
schedule the model's own (log entries 20 and 26). -/
def Obligations.InputIsTakenInOrder : Prop :=
  (∀ (s : State) (batch : List Byte) (later : List (List Byte)), s.arrivals = batch :: later →
    deliver s = { s with kbdQ := s.kbdQ ++ batch, arrivals := later }) ∧
  (∀ s : State, s.arrivals = [] → deliver s = s) ∧
  (∀ s t : State, step s = .next t → t.kbdQ ++ t.arrivals.flatten <:+ s.kbdQ ++ s.arrivals.flatten) ∧
  ∀ s t : State, s.run = .running → step s = .next t →
    t.arrivals = s.arrivals.drop (1 + (interfaceReads (decodeWord s.fetchedWord) s.fetchedState).length) ∧
    ∃ taken : List Byte, s.kbdQ ++ s.arrivals.flatten = taken ++ (t.kbdQ ++ t.arrivals.flatten) ∧
      taken.length ≤ maxTaken (decodeWord s.fetchedWord) s s.fetchedState

/-- R6: no step changes a parameter of the instance (log entries 6 and 7). -/
def Obligations.ParametersNeverChange : Prop :=
  ∀ s t : State, step s = .next t → t.cfg = s.cfg

/-- The invariant (`State.Inv`, the model's) is kept by every step from every state that has it. -/
def Obligations.StepKeepsTheInvariant : Prop :=
  ∀ s t : State, s.Inv → step s = .next t → t.Inv

/-- The invariant holds at reset. -/
def Obligations.ResetHasTheInvariant : Prop := State.reset.Inv

/-- The invariant holds after every boot that is not refused. -/
def Obligations.BootEstablishesTheInvariant : Prop :=
  ∀ cfg pending arrivals image t, boot cfg pending arrivals image = .next t → t.Inv

/-- R26: a machine in zeroed memory with no input walks one word a step, through the whole address space and around its top,
and nothing else changes. That a zero word is a BR is the spec's decision D1 (log entry 8). -/
def Obligations.ZeroedMemoryIsWalkedOneWordAStep : Prop :=
  ∀ (n : Nat) (s : State), s.run = .running → s.mem = [] → s.kbdQ = [] → s.arrivals = [] →
    Sys2Proof.core.run n s = .next { s with pc := s.pc + BitVec.ofNat 16 n }

/-! ### Reset and boot -/

/-- R40: what reset leaves. Registers of zero and `cond = Z` are the spec's decisions D8 and D9 (log entries 3 and 4);
0x3000 for `pc` is the model's while no image is loaded (log entry 5). -/
def Obligations.ResetHoldsTheTabulatedValues : Prop :=
  (∀ r, State.reset.reg r = 0x0000#16) ∧ State.reset.pc = 0x3000#16 ∧ State.reset.cond = .z ∧
  State.reset.run = .running ∧ State.reset.faultRec = none ∧ (∀ a, State.reset.mem.word a = 0x0000#16) ∧
  State.reset.kbdQ = [] ∧ State.reset.conOut = []

/-- R194: an image that fits is loaded at its origin, every other word is zero, and execution starts at the origin, which is
the spec's decision D7 (log entry 5). -/
def Obligations.BootLoadsTheImageAtItsOrigin : Prop :=
  ∀ (cfg : Config) (pending : List Byte) (arrivals : List (List Byte)) (origin : Word) (payload : List Word),
    cfg.wf → origin.toNat + payload.length ≤ 65536 →
    ∃ t, boot cfg pending arrivals (imageBytes origin payload) = .next t ∧
      (∀ k w, payload[k]? = some w → t.mem.word (origin + BitVec.ofNat 16 k) = w) ∧
      (∀ a : Word, a.toNat < origin.toNat ∨ origin.toNat + payload.length ≤ a.toNat → t.mem.word a = 0x0000#16) ∧
      t.pc = origin

/-- R191: the other values a boot leaves, by the spec's decisions D8 and D9 (log entries 3 and 4) and the environment. -/
def Obligations.BootLeavesTheResetValues : Prop :=
  ∀ cfg pending arrivals image t, boot cfg pending arrivals image = .next t →
    (∀ r, t.reg r = 0x0000#16) ∧ t.cond = .z ∧ t.run = .running ∧ t.faultRec = none ∧
    t.kbdQ = pending ∧ t.conOut = [] ∧ t.arrivals = arrivals ∧ t.cfg = cfg

/-- R195: the images the host must not present are refused, each by name, which is the spec's decision D25 (log entry 27).
-/
def Obligations.MalformedImagesAreRefused : Prop :=
  ∀ (cfg : Config) (pending : List Byte) (arrivals : List (List Byte)), cfg.wf →
    (∀ image : List Byte, image.length < 2 → boot cfg pending arrivals image = .refused .imageWithoutOrigin) ∧
    (∀ image : List Byte, 2 ≤ image.length → image.length % 2 = 1 →
      boot cfg pending arrivals image = .refused .imageOfOddLength) ∧
    (∀ (origin : Word) (payload : List Word), 65536 < origin.toNat + payload.length →
      boot cfg pending arrivals (imageBytes origin payload) = .refused .imageTooLarge)
end

