-- ==== Sys2Proof/Laws/Encoding.lean ====
section
/-! SUPPORT. Small lemmas about register numbers, the fields of a word, and the rows of the opcode table. -/

namespace Sys2Proof

@[simp] theorem ofBits_toBits (r : Reg) : Reg.ofBits r.toBits = r := by cases r <;> rfl

@[simp] theorem toBits_ofBits (b : BitVec 3) : (Reg.ofBits b).toBits = b := by revert b; decide

/-- A bit of a field is a bit of the word. -/
theorem getLsbD_bits (ir : Word) (lo len i : Nat) :
    (bits ir lo len).getLsbD i = (decide (i < len) && ir.getLsbD (lo + i)) := by
  simp [bits]

theorem toBits_regField (ir : Word) (lo : Nat) : (regField ir lo).toBits = bits ir lo 3 := by simp [regField]

/-! ### The word of each instruction -/

theorem encode_addReg (dr sr1 sr2 : Reg) : encode (.addReg dr sr1 sr2) =
    0b0001#4 ++ dr.toBits ++ sr1.toBits ++ 0b000#3 ++ sr2.toBits := rfl

theorem encode_addImm (dr sr1 : Reg) (imm5 : BitVec 5) : encode (.addImm dr sr1 imm5) =
    0b0001#4 ++ dr.toBits ++ sr1.toBits ++ 0b1#1 ++ imm5 := rfl

theorem encode_andReg (dr sr1 sr2 : Reg) : encode (.andReg dr sr1 sr2) =
    0b0101#4 ++ dr.toBits ++ sr1.toBits ++ 0b000#3 ++ sr2.toBits := rfl

theorem encode_andImm (dr sr1 : Reg) (imm5 : BitVec 5) : encode (.andImm dr sr1 imm5) =
    0b0101#4 ++ dr.toBits ++ sr1.toBits ++ 0b1#1 ++ imm5 := rfl

theorem encode_not (dr sr : Reg) : encode (.not dr sr) = 0b1001#4 ++ dr.toBits ++ sr.toBits ++ 0b111111#6 := rfl

theorem encode_br (n z p : Bool) (offset9 : BitVec 9) : encode (.br n z p offset9) =
    0b0000#4 ++ BitVec.ofBool n ++ BitVec.ofBool z ++ BitVec.ofBool p ++ offset9 := rfl

theorem encode_jmp (baseR : Reg) : encode (.jmp baseR) =
    0b1100#4 ++ 0b000#3 ++ baseR.toBits ++ 0b000000#6 := rfl

theorem encode_jsr (offset11 : BitVec 11) : encode (.jsr offset11) = 0b0100#4 ++ 0b1#1 ++ offset11 := rfl

theorem encode_jsrr (baseR : Reg) : encode (.jsrr baseR) =
    0b0100#4 ++ 0b000#3 ++ baseR.toBits ++ 0b000000#6 := rfl

theorem encode_ld (dr : Reg) (offset9 : BitVec 9) : encode (.ld dr offset9) =
    0b0010#4 ++ dr.toBits ++ offset9 := rfl

theorem encode_ldi (dr : Reg) (offset9 : BitVec 9) : encode (.ldi dr offset9) =
    0b1010#4 ++ dr.toBits ++ offset9 := rfl

theorem encode_ldr (dr baseR : Reg) (offset6 : BitVec 6) : encode (.ldr dr baseR offset6) =
    0b0110#4 ++ dr.toBits ++ baseR.toBits ++ offset6 := rfl

theorem encode_lea (dr : Reg) (offset9 : BitVec 9) : encode (.lea dr offset9) =
    0b1110#4 ++ dr.toBits ++ offset9 := rfl

theorem encode_st (sr : Reg) (offset9 : BitVec 9) : encode (.st sr offset9) =
    0b0011#4 ++ sr.toBits ++ offset9 := rfl

theorem encode_sti (sr : Reg) (offset9 : BitVec 9) : encode (.sti sr offset9) =
    0b1011#4 ++ sr.toBits ++ offset9 := rfl

theorem encode_str (sr baseR : Reg) (offset6 : BitVec 6) : encode (.str sr baseR offset6) =
    0b0111#4 ++ sr.toBits ++ baseR.toBits ++ offset6 := rfl

theorem encode_trapGetc : encode .trapGetc = 0b1111#4 ++ 0b0000#4 ++ 0x20#8 := rfl

theorem encode_trapOut : encode .trapOut = 0b1111#4 ++ 0b0000#4 ++ 0x21#8 := rfl

theorem encode_trapPuts : encode .trapPuts = 0b1111#4 ++ 0b0000#4 ++ 0x22#8 := rfl

theorem encode_trapIn : encode .trapIn = 0b1111#4 ++ 0b0000#4 ++ 0x23#8 := rfl

theorem encode_trapPutsp : encode .trapPutsp = 0b1111#4 ++ 0b0000#4 ++ 0x24#8 := rfl

theorem encode_trapHalt : encode .trapHalt = 0b1111#4 ++ 0b0000#4 ++ 0x25#8 := rfl

theorem encode_trapUnknown (unused : BitVec 4) (trapvect8 : BitVec 8) : encode (.trapUnknown unused trapvect8) =
    0b1111#4 ++ unused ++ trapvect8 := rfl

theorem encode_reserved1000 (unused : BitVec 12) : encode (.reserved1000 unused) = 0b1000#4 ++ unused := rfl

theorem encode_reserved1101 (unused : BitVec 12) : encode (.reserved1101 unused) = 0b1101#4 ++ unused := rfl

/-! ### The rows of the table -/

/-- A word selects a row when every bit says so. -/
theorem selects_of_bits (r : TableRow) (w : Word)
    (h : ∀ i < 16, (w.getLsbD i && r.mask.getLsbD i) = r.value.getLsbD i) : r.selects w = true := by
  simp only [TableRow.selects, decide_eq_true_eq]
  apply BitVec.eq_of_getLsbD_eq
  intro i hi
  rw [BitVec.getLsbD_and]
  exact h i hi

/-- A row that fixes the four opcode bits. -/
theorem selects_opcode {mn fmt : String} {v w : Word} (h : (w.getLsbD 15 = v.getLsbD 15 ∧ w.getLsbD 14 = v.getLsbD 14 ∧
    w.getLsbD 13 = v.getLsbD 13 ∧ w.getLsbD 12 = v.getLsbD 12) ∧ v &&& 0xF000#16 = v) :
    (⟨mn, fmt, 0xF000#16, v⟩ : TableRow).selects w = true := by
  obtain ⟨⟨h15, h14, h13, h12⟩, hv⟩ := h
  refine selects_of_bits _ _ fun i hi => ?_
  simp only
  rw [← hv, BitVec.getLsbD_and]
  interval_cases i <;> simp_all

/-- A row of opcode 0001 or 0101, which fixes the opcode and bit 5. -/
theorem selects_operate {mn fmt : String} {v w : Word} (h : (w.getLsbD 15 = v.getLsbD 15 ∧ w.getLsbD 14 = v.getLsbD 14 ∧
    w.getLsbD 13 = v.getLsbD 13 ∧ w.getLsbD 12 = v.getLsbD 12 ∧ w.getLsbD 5 = v.getLsbD 5) ∧ v &&& 0xF020#16 = v) :
    (⟨mn, fmt, 0xF020#16, v⟩ : TableRow).selects w = true := by
  obtain ⟨⟨h15, h14, h13, h12, h5⟩, hv⟩ := h
  refine selects_of_bits _ _ fun i hi => ?_
  simp only
  rw [← hv, BitVec.getLsbD_and]
  interval_cases i <;> simp_all

/-- A row of opcode 0100, which fixes the opcode and bit 11. -/
theorem selects_jump {mn fmt : String} {v w : Word} (h : (w.getLsbD 15 = v.getLsbD 15 ∧ w.getLsbD 14 = v.getLsbD 14 ∧
    w.getLsbD 13 = v.getLsbD 13 ∧ w.getLsbD 12 = v.getLsbD 12 ∧ w.getLsbD 11 = v.getLsbD 11) ∧ v &&& 0xF800#16 = v) :
    (⟨mn, fmt, 0xF800#16, v⟩ : TableRow).selects w = true := by
  obtain ⟨⟨h15, h14, h13, h12, h11⟩, hv⟩ := h
  refine selects_of_bits _ _ fun i hi => ?_
  simp only
  rw [← hv, BitVec.getLsbD_and]
  interval_cases i <;> simp_all

end Sys2Proof
end

