-- ==== Sys2Proof/Laws/Memory.lean ====
section
/-! SUPPORT. The laws of the memory array: a read after a write, and that every write keeps the canonical form. -/

namespace Sys2Proof.Machine

/-! ### The two bytes of a word -/

theorem highByte_append_lowByte (v : Word) : highByte v ++ lowByte v = v := by
  apply BitVec.eq_of_getLsbD_eq
  intro i hi
  simp only [highByte, lowByte, BitVec.getLsbD_append, BitVec.getLsbD_extractLsb']
  split
  · simp [*]
  · have : i - 8 < 8 := by omega
    have : 8 + (i - 8) = i := by omega
    simp [*]

theorem highByte_append (h l : Byte) : highByte (h ++ l) = h := by
  apply BitVec.eq_of_getLsbD_eq
  intro i hi
  simp only [highByte, BitVec.getLsbD_extractLsb', BitVec.getLsbD_append]
  simp [hi]

theorem lowByte_append (h l : Byte) : lowByte (h ++ l) = l := by
  apply BitVec.eq_of_getLsbD_eq
  intro i hi
  simp only [lowByte, BitVec.getLsbD_extractLsb', BitVec.getLsbD_append]
  simp [hi]

/-! ### The cells of a word -/

theorem highCell_lt (a : Word) : highCell a < Memory.cellCount := by
  have := a.isLt; simp only [highCell, Memory.cellCount]; omega

theorem lowCell_lt (a : Word) : lowCell a < Memory.cellCount := by
  have := a.isLt; simp only [lowCell, Memory.cellCount]; omega

theorem highCell_inj {a b : Word} : highCell a = highCell b ↔ a = b := by
  simp only [highCell, BitVec.toNat_eq]; omega

theorem lowCell_inj {a b : Word} : lowCell a = lowCell b ↔ a = b := by
  simp only [lowCell, BitVec.toNat_eq]; omega

theorem highCell_ne_lowCell (a b : Word) : highCell a ≠ lowCell b := by
  simp only [highCell, lowCell]; omega

theorem lowCell_ne_highCell (a b : Word) : lowCell a ≠ highCell b := (highCell_ne_lowCell b a).symm

/-! ### Read after write, for every memory -/

@[simp] theorem byteAt_nil (k : Nat) : Memory.byteAt [] k = Memory.unlisted := rfl

theorem byteAt_erase (m : Memory) (k j : Nat) :
    (m.erase k).byteAt j = if j = k then Memory.unlisted else m.byteAt j := by
  induction m with
  | nil => simp [Memory.erase]
  | cons c m ih =>
    unfold Memory.erase at ih ⊢
    by_cases hc : c.1 = k
    · simp only [List.filter_cons, hc, bne_self_eq_false, Bool.false_eq_true, if_false, ih, Memory.byteAt]
      by_cases hj : j = k
      · simp [hj]
      · simp [hj, Ne.symm hj]
    · simp only [List.filter_cons, bne_iff_ne, ne_eq, hc, not_false_eq_true, if_true, Memory.byteAt, ih]
      by_cases hj : c.1 = j
      · subst hj; simp [hc]
      · simp [hj]

theorem byteAt_insert (m : Memory) (k : Nat) (v : Byte) (h : m.byteAt k = Memory.unlisted)
    (hm : ∀ c ∈ m, c.1 ≠ k) (j : Nat) : (m.insert k v).byteAt j = if j = k then v else m.byteAt j := by
  induction m with
  | nil => simp [Memory.insert, Memory.byteAt, eq_comm]
  | cons c m ih =>
    have hck : c.1 ≠ k := hm c (by simp)
    have hm' : ∀ d ∈ m, d.1 ≠ k := fun d hd => hm d (by simp [hd])
    have hk : Memory.byteAt m k = Memory.unlisted := by simpa [Memory.byteAt, hck] using h
    unfold Memory.insert
    split
    · by_cases hj : j = k
      · simp [Memory.byteAt, hj]
      · simp [Memory.byteAt, hj, Ne.symm hj]
    · simp only [Memory.byteAt, ih hk hm']
      by_cases hj : c.1 = j
      · subst hj; simp [hck]
      · simp [hj]

theorem erase_cells_ne (m : Memory) (k : Nat) : ∀ c ∈ m.erase k, c.1 ≠ k := by
  intro c hc
  simpa [Memory.erase] using (List.mem_filter.mp hc).2

/-- A read of a cell after a write of a cell. -/
theorem byteAt_setByte (m : Memory) (k j : Nat) (v : Byte) :
    (m.setByte k v).byteAt j = if j = k then v else m.byteAt j := by
  unfold Memory.setByte
  split
  · rename_i h; rw [byteAt_erase, h]
  · rw [byteAt_insert _ _ _ (by simp [byteAt_erase]) (erase_cells_ne m k), byteAt_erase]
    split <;> rfl

/-- A read of a cell after a write of a word. -/
theorem byteAt_setWord (m : Memory) (a v : Word) (k : Nat) :
    (m.setWord a v).byteAt k =
      if k = lowCell a then lowByte v else if k = highCell a then highByte v else m.byteAt k := by
  simp only [Memory.setWord, byteAt_setByte]

/-- A read of a word after a write of a word. -/
theorem word_setWord (m : Memory) (a b v : Word) : (m.setWord a v).word b = if b = a then v else m.word b := by
  simp only [Memory.word, byteAt_setWord, highCell_ne_lowCell, lowCell_ne_highCell, highCell_inj, lowCell_inj, if_false]
  split
  · exact highByte_append_lowByte v
  · rfl

@[simp] theorem word_setWord_same (m : Memory) (a v : Word) : (m.setWord a v).word a = v := by simp [word_setWord]

@[simp] theorem word_setWord_other (m : Memory) {a b : Word} (v : Word) (h : b ≠ a) :
    (m.setWord a v).word b = m.word b := by simp [word_setWord, h]

/-- Memory with nothing listed is zero (spec/10_state.md R26). -/
@[simp] theorem word_nil (a : Word) : Memory.word [] a = 0#16 := by
  simp only [Memory.word, byteAt_nil, Memory.unlisted]
  decide

/-! ### Every write keeps the canonical form -/

theorem wf_nil : Memory.wf [] := by simp [Memory.wf]

theorem wf_erase {m : Memory} (h : m.wf) (k : Nat) : (m.erase k).wf :=
  ⟨h.1.filter _, fun c hc => h.2 c (List.mem_filter.mp hc).1⟩

theorem mem_insert {m : Memory} {k : Nat} {v : Byte} {c : Host.Cell} (hc : c ∈ m.insert k v) :
    c = (k, v) ∨ c ∈ m := by
  induction m with
  | nil => simpa [Memory.insert] using hc
  | cons d m ih =>
    unfold Memory.insert at hc
    split at hc
    · simpa using hc
    · rcases List.mem_cons.mp hc with h | h
      · simp [h]
      · rcases ih h with h' | h' <;> simp [h']

theorem pairwise_insert {m : Memory} {k : Nat} {v : Byte} (h : m.Pairwise (fun c d => c.1 < d.1))
    (hm : ∀ c ∈ m, c.1 ≠ k) : (m.insert k v).Pairwise (fun c d => c.1 < d.1) := by
  induction m with
  | nil => simp [Memory.insert]
  | cons d m ih =>
    obtain ⟨hd, hp⟩ := List.pairwise_cons.mp h
    unfold Memory.insert
    split
    · rename_i hk
      refine List.pairwise_cons.mpr ⟨fun c hc => ?_, h⟩
      rcases List.mem_cons.mp hc with rfl | hc
      · exact hk
      · exact Nat.lt_trans hk (hd c hc)
    · rename_i hk
      have hdk : d.1 ≠ k := hm d (by simp)
      refine List.pairwise_cons.mpr ⟨fun c hc => ?_, ih hp fun c hc => hm c (by simp [hc])⟩
      rcases mem_insert hc with rfl | hc
      · exact Nat.lt_of_le_of_ne (Nat.le_of_not_lt hk) hdk
      · exact hd c hc

theorem wf_setByte {m : Memory} (h : m.wf) {k : Nat} (hk : k < Memory.cellCount) (v : Byte) : (m.setByte k v).wf := by
  unfold Memory.setByte
  split
  · exact wf_erase h k
  · rename_i hv
    refine ⟨pairwise_insert (wf_erase h k).1 (erase_cells_ne m k), fun c hc => ?_⟩
    rcases mem_insert hc with rfl | hc
    · exact ⟨hv, hk⟩
    · exact (wf_erase h k).2 c hc

theorem wf_setWord {m : Memory} (h : m.wf) (a v : Word) : (m.setWord a v).wf :=
  wf_setByte (wf_setByte h (highCell_lt a) _) (lowCell_lt a) _

theorem wf_loadWords {m : Memory} (h : m.wf) (a : Word) (ws : List Word) : (loadWords m a ws).wf := by
  induction ws generalizing m a with
  | nil => exact h
  | cons w ws ih => exact ih (wf_setWord h a w) _

end Sys2Proof.Machine
end

