-- ==== Sys2Proof/Laws/State.lean ====
section
/-! SUPPORT. One lemma for each field of the state under each named update, and the register file's read after write. -/

namespace Sys2Proof.Machine

/-! ### The register file -/

theorem regFile_get_set (f : RegFile) (r q : Reg) (v : Word) :
    (f.set r v).get q = if q = r then v else f.get q := by
  cases r <;> cases q <;> rfl

/-- Two register files that read alike are equal. -/
theorem regFile_ext (f g : RegFile) (h : ∀ r, f.get r = g.get r) : f = g := by
  cases f; cases g
  simp only [RegFile.mk.injEq]
  exact ⟨h .r0, h .r1, h .r2, h .r3, h .r4, h .r5, h .r6, h .r7⟩

@[simp] theorem reg_setReg_same (s : State) (r : Reg) (v : Word) : (s.setReg r v).reg r = v := by
  simp [State.reg, State.setReg, regFile_get_set]

@[simp] theorem reg_setReg_other (s : State) {r q : Reg} (v : Word) (h : q ≠ r) : (s.setReg r v).reg q = s.reg q := by
  simp [State.reg, State.setReg, regFile_get_set, h]

/-! ### setReg -/

@[simp] theorem setReg_pc (s : State) (r : Reg) (v : Word) : (s.setReg r v).pc = s.pc := rfl
@[simp] theorem setReg_cond (s : State) (r : Reg) (v : Word) : (s.setReg r v).cond = s.cond := rfl
@[simp] theorem setReg_run (s : State) (r : Reg) (v : Word) : (s.setReg r v).run = s.run := rfl
@[simp] theorem setReg_faultRec (s : State) (r : Reg) (v : Word) : (s.setReg r v).faultRec = s.faultRec := rfl
@[simp] theorem setReg_mem (s : State) (r : Reg) (v : Word) : (s.setReg r v).mem = s.mem := rfl
@[simp] theorem setReg_kbdQ (s : State) (r : Reg) (v : Word) : (s.setReg r v).kbdQ = s.kbdQ := rfl
@[simp] theorem setReg_conOut (s : State) (r : Reg) (v : Word) : (s.setReg r v).conOut = s.conOut := rfl
@[simp] theorem setReg_arrivals (s : State) (r : Reg) (v : Word) : (s.setReg r v).arrivals = s.arrivals := rfl
@[simp] theorem setReg_cfg (s : State) (r : Reg) (v : Word) : (s.setReg r v).cfg = s.cfg := rfl

/-! ### setPc -/

@[simp] theorem setPc_reg (s : State) (t : Word) (q : Reg) : (s.setPc t).reg q = s.reg q := rfl
@[simp] theorem setPc_pc (s : State) (t : Word) : (s.setPc t).pc = t := rfl
@[simp] theorem setPc_cond (s : State) (t : Word) : (s.setPc t).cond = s.cond := rfl
@[simp] theorem setPc_run (s : State) (t : Word) : (s.setPc t).run = s.run := rfl
@[simp] theorem setPc_faultRec (s : State) (t : Word) : (s.setPc t).faultRec = s.faultRec := rfl
@[simp] theorem setPc_mem (s : State) (t : Word) : (s.setPc t).mem = s.mem := rfl
@[simp] theorem setPc_kbdQ (s : State) (t : Word) : (s.setPc t).kbdQ = s.kbdQ := rfl
@[simp] theorem setPc_conOut (s : State) (t : Word) : (s.setPc t).conOut = s.conOut := rfl
@[simp] theorem setPc_arrivals (s : State) (t : Word) : (s.setPc t).arrivals = s.arrivals := rfl
@[simp] theorem setPc_cfg (s : State) (t : Word) : (s.setPc t).cfg = s.cfg := rfl

/-! ### conEmit -/

@[simp] theorem conEmit_reg (bs : List Byte) (s : State) (q : Reg) : (conEmit bs s).reg q = s.reg q := rfl
@[simp] theorem conEmit_pc (bs : List Byte) (s : State) : (conEmit bs s).pc = s.pc := rfl
@[simp] theorem conEmit_cond (bs : List Byte) (s : State) : (conEmit bs s).cond = s.cond := rfl
@[simp] theorem conEmit_run (bs : List Byte) (s : State) : (conEmit bs s).run = s.run := rfl
@[simp] theorem conEmit_faultRec (bs : List Byte) (s : State) : (conEmit bs s).faultRec = s.faultRec := rfl
@[simp] theorem conEmit_mem (bs : List Byte) (s : State) : (conEmit bs s).mem = s.mem := rfl
@[simp] theorem conEmit_kbdQ (bs : List Byte) (s : State) : (conEmit bs s).kbdQ = s.kbdQ := rfl
@[simp] theorem conEmit_conOut (bs : List Byte) (s : State) : (conEmit bs s).conOut = s.conOut ++ bs := rfl
@[simp] theorem conEmit_arrivals (bs : List Byte) (s : State) : (conEmit bs s).arrivals = s.arrivals := rfl
@[simp] theorem conEmit_cfg (bs : List Byte) (s : State) : (conEmit bs s).cfg = s.cfg := rfl

/-! ### memWrite -/

@[simp] theorem memWrite_reg (a v : Word) (s : State) (q : Reg) : (memWrite a v s).reg q = s.reg q := rfl
@[simp] theorem memWrite_pc (a v : Word) (s : State) : (memWrite a v s).pc = s.pc := rfl
@[simp] theorem memWrite_cond (a v : Word) (s : State) : (memWrite a v s).cond = s.cond := rfl
@[simp] theorem memWrite_run (a v : Word) (s : State) : (memWrite a v s).run = s.run := rfl
@[simp] theorem memWrite_faultRec (a v : Word) (s : State) : (memWrite a v s).faultRec = s.faultRec := rfl
@[simp] theorem memWrite_mem (a v : Word) (s : State) : (memWrite a v s).mem = s.mem.setWord a v := rfl
@[simp] theorem memWrite_kbdQ (a v : Word) (s : State) : (memWrite a v s).kbdQ = s.kbdQ := rfl
@[simp] theorem memWrite_conOut (a v : Word) (s : State) : (memWrite a v s).conOut = s.conOut := rfl
@[simp] theorem memWrite_arrivals (a v : Word) (s : State) : (memWrite a v s).arrivals = s.arrivals := rfl
@[simp] theorem memWrite_cfg (a v : Word) (s : State) : (memWrite a v s).cfg = s.cfg := rfl

/-! ### halt -/

@[simp] theorem halt_reg (s : State) (q : Reg) : (halt s).reg q = s.reg q := rfl
@[simp] theorem halt_pc (s : State) : (halt s).pc = s.pc := rfl
@[simp] theorem halt_cond (s : State) : (halt s).cond = s.cond := rfl
@[simp] theorem halt_run (s : State) : (halt s).run = .halted := rfl
@[simp] theorem halt_faultRec (s : State) : (halt s).faultRec = s.faultRec := rfl
@[simp] theorem halt_mem (s : State) : (halt s).mem = s.mem := rfl
@[simp] theorem halt_kbdQ (s : State) : (halt s).kbdQ = s.kbdQ := rfl
@[simp] theorem halt_conOut (s : State) : (halt s).conOut = s.conOut := rfl
@[simp] theorem halt_arrivals (s : State) : (halt s).arrivals = s.arrivals := rfl
@[simp] theorem halt_cfg (s : State) : (halt s).cfg = s.cfg := rfl

/-! ### raiseIllegalOpcode -/

@[simp] theorem raiseIllegalOpcode_reg (c : IllegalReason) (ir : Word) (s : State) (q : Reg) : (raiseIllegalOpcode c ir s).reg q = s.reg q := rfl
@[simp] theorem raiseIllegalOpcode_pc (c : IllegalReason) (ir : Word) (s : State) : (raiseIllegalOpcode c ir s).pc = s.pc := rfl
@[simp] theorem raiseIllegalOpcode_cond (c : IllegalReason) (ir : Word) (s : State) : (raiseIllegalOpcode c ir s).cond = s.cond := rfl
@[simp] theorem raiseIllegalOpcode_run (c : IllegalReason) (ir : Word) (s : State) : (raiseIllegalOpcode c ir s).run = .faulted := rfl
@[simp] theorem raiseIllegalOpcode_faultRec (c : IllegalReason) (ir : Word) (s : State) : (raiseIllegalOpcode c ir s).faultRec = some ⟨c, ir⟩ := rfl
@[simp] theorem raiseIllegalOpcode_mem (c : IllegalReason) (ir : Word) (s : State) : (raiseIllegalOpcode c ir s).mem = s.mem := rfl
@[simp] theorem raiseIllegalOpcode_kbdQ (c : IllegalReason) (ir : Word) (s : State) : (raiseIllegalOpcode c ir s).kbdQ = s.kbdQ := rfl
@[simp] theorem raiseIllegalOpcode_conOut (c : IllegalReason) (ir : Word) (s : State) : (raiseIllegalOpcode c ir s).conOut = s.conOut := rfl
@[simp] theorem raiseIllegalOpcode_arrivals (c : IllegalReason) (ir : Word) (s : State) : (raiseIllegalOpcode c ir s).arrivals = s.arrivals := rfl
@[simp] theorem raiseIllegalOpcode_cfg (c : IllegalReason) (ir : Word) (s : State) : (raiseIllegalOpcode c ir s).cfg = s.cfg := rfl

/-! ### waitForInput -/

@[simp] theorem waitForInput_reg (s : State) (q : Reg) : (waitForInput s).reg q = s.reg q := rfl
@[simp] theorem waitForInput_pc (s : State) : (waitForInput s).pc = s.pc - 1#16 := rfl
@[simp] theorem waitForInput_cond (s : State) : (waitForInput s).cond = s.cond := rfl
@[simp] theorem waitForInput_run (s : State) : (waitForInput s).run = s.run := rfl
@[simp] theorem waitForInput_faultRec (s : State) : (waitForInput s).faultRec = s.faultRec := rfl
@[simp] theorem waitForInput_mem (s : State) : (waitForInput s).mem = s.mem := rfl
@[simp] theorem waitForInput_kbdQ (s : State) : (waitForInput s).kbdQ = s.kbdQ := rfl
@[simp] theorem waitForInput_conOut (s : State) : (waitForInput s).conOut = s.conOut := rfl
@[simp] theorem waitForInput_arrivals (s : State) : (waitForInput s).arrivals = s.arrivals := rfl
@[simp] theorem waitForInput_cfg (s : State) : (waitForInput s).cfg = s.cfg := rfl

/-! ### setcc -/

@[simp] theorem setcc_reg (r : Reg) (s : State) (q : Reg) : (setcc r s).reg q = s.reg q := rfl
@[simp] theorem setcc_pc (r : Reg) (s : State) : (setcc r s).pc = s.pc := rfl
@[simp] theorem setcc_cond (r : Reg) (s : State) : (setcc r s).cond = condOf (s.reg r) := rfl
@[simp] theorem setcc_run (r : Reg) (s : State) : (setcc r s).run = s.run := rfl
@[simp] theorem setcc_faultRec (r : Reg) (s : State) : (setcc r s).faultRec = s.faultRec := rfl
@[simp] theorem setcc_mem (r : Reg) (s : State) : (setcc r s).mem = s.mem := rfl
@[simp] theorem setcc_kbdQ (r : Reg) (s : State) : (setcc r s).kbdQ = s.kbdQ := rfl
@[simp] theorem setcc_conOut (r : Reg) (s : State) : (setcc r s).conOut = s.conOut := rfl
@[simp] theorem setcc_arrivals (r : Reg) (s : State) : (setcc r s).arrivals = s.arrivals := rfl
@[simp] theorem setcc_cfg (r : Reg) (s : State) : (setcc r s).cfg = s.cfg := rfl

/-! ### writeResult -/

@[simp] theorem writeResult_reg_same (d : Reg) (v : Word) (s : State) : (writeResult d v s).reg d = v := by
  simp [writeResult]

@[simp] theorem writeResult_reg_other {d q : Reg} (v : Word) (s : State) (h : q ≠ d) :
    (writeResult d v s).reg q = s.reg q := by
  simp [writeResult, h]

@[simp] theorem writeResult_cond (d : Reg) (v : Word) (s : State) : (writeResult d v s).cond = condOf v := by
  simp [writeResult]

@[simp] theorem writeResult_pc (d : Reg) (v : Word) (s : State) : (writeResult d v s).pc = s.pc := rfl
@[simp] theorem writeResult_run (d : Reg) (v : Word) (s : State) : (writeResult d v s).run = s.run := rfl
@[simp] theorem writeResult_faultRec (d : Reg) (v : Word) (s : State) : (writeResult d v s).faultRec = s.faultRec := rfl
@[simp] theorem writeResult_mem (d : Reg) (v : Word) (s : State) : (writeResult d v s).mem = s.mem := rfl
@[simp] theorem writeResult_kbdQ (d : Reg) (v : Word) (s : State) : (writeResult d v s).kbdQ = s.kbdQ := rfl
@[simp] theorem writeResult_conOut (d : Reg) (v : Word) (s : State) : (writeResult d v s).conOut = s.conOut := rfl
@[simp] theorem writeResult_arrivals (d : Reg) (v : Word) (s : State) : (writeResult d v s).arrivals = s.arrivals := rfl
@[simp] theorem writeResult_cfg (d : Reg) (v : Word) (s : State) : (writeResult d v s).cfg = s.cfg := rfl

end Sys2Proof.Machine
end

