-- ==== Sys2Proof/Laws/Ops.lean ====
section
/-! SUPPORT. What each shared operation can do, said once: the condition register, the keyboard, the memory interface, the
exception, the fetch and the cycle. -/

namespace Sys2Proof.Machine

/-! ### The condition register -/

theorem condOf_reflects (v : Word) : CondReflects v (condOf v) := by
  unfold CondReflects condOf
  by_cases h : v.getLsbD 15 = true
  · have : v ≠ 0#16 := by rintro rfl; simp at h
    simp [h, this]
  · by_cases hz : v = 0#16
    · simp [hz]
    · simp only [Bool.not_eq_true] at h
      simp only [h, hz]
      simp [hz]

theorem branchTaken_iff (n z p : Bool) (c : Cond) :
    branchTaken n z p c = true ↔ (n = true ∧ c = .n) ∨ (z = true ∧ c = .z) ∨ (p = true ∧ c = .p) := by
  cases n <;> cases z <;> cases p <;> cases c <;> decide

/-! ### The keyboard -/

theorem kbdRead_nil {s : State} (h : s.kbdQ = []) : kbdRead s = none := by simp [kbdRead, h]

theorem kbdRead_cons {s : State} {c : Byte} {q : List Byte} (h : s.kbdQ = c :: q) :
    kbdRead s = some (c, { s with kbdQ := q }) := by simp [kbdRead, h]

/-- A ready status read (spec/20_memory.md R52). -/
theorem pollStatus_ready {s : State} {c : Byte} {q : List Byte} (h : s.kbdQ = c :: q) :
    pollStatus s = memWrite s.cfg.kbdr (zext16 c) (memWrite s.cfg.kbsr 0x8000#16 { s with kbdQ := q }) := by
  simp [pollStatus, kbdRead_cons h]

/-- A status read with nothing pending (spec/20_memory.md R52). -/
theorem pollStatus_idle {s : State} (h : s.kbdQ = []) : pollStatus s = memWrite s.cfg.kbsr 0x0000#16 s := by
  simp [pollStatus, kbdRead_nil h]

/-- All that a status read can do. -/
theorem pollStatus_cases (s : State) :
    (∃ c q, s.kbdQ = c :: q ∧
      pollStatus s = memWrite s.cfg.kbdr (zext16 c) (memWrite s.cfg.kbsr 0x8000#16 { s with kbdQ := q })) ∨
    (s.kbdQ = [] ∧ pollStatus s = memWrite s.cfg.kbsr 0x0000#16 s) := by
  cases h : s.kbdQ with
  | nil => exact .inr ⟨rfl, pollStatus_idle h⟩
  | cons c q => exact .inl ⟨c, q, rfl, pollStatus_ready h⟩

/-! ### The memory interface -/

theorem afterRead_plain {a : Word} {s : State} (h : a ≠ s.cfg.kbsr) : afterRead a s = s := by simp [afterRead, h]

theorem afterRead_status (s : State) : afterRead s.cfg.kbsr s = pollStatus s := by simp [afterRead]

/-- A read of any address but the status address (spec/20_memory.md R52, R58). -/
theorem memRead_plain {a : Word} {s : State} (h : a ≠ s.cfg.kbsr) : memRead a s = (s.mem.word a, s) := by
  simp [memRead, afterRead_plain h]

/-- All that a read can do to the state. -/
theorem afterRead_cases (a : Word) (s : State) :
    afterRead a s = s ∨ (a = s.cfg.kbsr ∧ afterRead a s = pollStatus s) := by
  by_cases h : a = s.cfg.kbsr
  · exact .inr ⟨h, by simp [afterRead, h]⟩
  · exact .inl (afterRead_plain h)

@[simp] theorem memRead_fst (a : Word) (s : State) : (memRead a s).1 = (afterRead a s).mem.word a := rfl
@[simp] theorem memRead_snd (a : Word) (s : State) : (memRead a s).2 = afterRead a s := rfl

@[simp] theorem afterRead_reg (a : Word) (s : State) (q : Reg) : (afterRead a s).reg q = s.reg q := by
  rcases afterRead_cases a s with h | ⟨-, h⟩
  · rw [h]
  · rcases pollStatus_cases s with ⟨c, t, -, h'⟩ | ⟨-, h'⟩ <;> rw [h, h'] <;> rfl

@[simp] theorem afterRead_pc (a : Word) (s : State) : (afterRead a s).pc = s.pc := by
  rcases afterRead_cases a s with h | ⟨-, h⟩
  · rw [h]
  · rcases pollStatus_cases s with ⟨c, t, -, h'⟩ | ⟨-, h'⟩ <;> rw [h, h'] <;> rfl

@[simp] theorem afterRead_cond (a : Word) (s : State) : (afterRead a s).cond = s.cond := by
  rcases afterRead_cases a s with h | ⟨-, h⟩
  · rw [h]
  · rcases pollStatus_cases s with ⟨c, t, -, h'⟩ | ⟨-, h'⟩ <;> rw [h, h'] <;> rfl

@[simp] theorem afterRead_run (a : Word) (s : State) : (afterRead a s).run = s.run := by
  rcases afterRead_cases a s with h | ⟨-, h⟩
  · rw [h]
  · rcases pollStatus_cases s with ⟨c, t, -, h'⟩ | ⟨-, h'⟩ <;> rw [h, h'] <;> rfl

@[simp] theorem afterRead_faultRec (a : Word) (s : State) : (afterRead a s).faultRec = s.faultRec := by
  rcases afterRead_cases a s with h | ⟨-, h⟩
  · rw [h]
  · rcases pollStatus_cases s with ⟨c, t, -, h'⟩ | ⟨-, h'⟩ <;> rw [h, h'] <;> rfl

@[simp] theorem afterRead_conOut (a : Word) (s : State) : (afterRead a s).conOut = s.conOut := by
  rcases afterRead_cases a s with h | ⟨-, h⟩
  · rw [h]
  · rcases pollStatus_cases s with ⟨c, t, -, h'⟩ | ⟨-, h'⟩ <;> rw [h, h'] <;> rfl

@[simp] theorem afterRead_arrivals (a : Word) (s : State) : (afterRead a s).arrivals = s.arrivals := by
  rcases afterRead_cases a s with h | ⟨-, h⟩
  · rw [h]
  · rcases pollStatus_cases s with ⟨c, t, -, h'⟩ | ⟨-, h'⟩ <;> rw [h, h'] <;> rfl

@[simp] theorem afterRead_cfg (a : Word) (s : State) : (afterRead a s).cfg = s.cfg := by
  rcases afterRead_cases a s with h | ⟨-, h⟩
  · rw [h]
  · rcases pollStatus_cases s with ⟨c, t, -, h'⟩ | ⟨-, h'⟩ <;> rw [h, h'] <;> rfl

/-- A read takes at most the oldest pending character. -/
theorem afterRead_kbdQ_suffix (a : Word) (s : State) : (afterRead a s).kbdQ <:+ s.kbdQ := by
  rcases afterRead_cases a s with h | ⟨-, h⟩
  · rw [h]
  · rcases pollStatus_cases s with ⟨c, t, hq, h'⟩ | ⟨-, h'⟩ <;> rw [h, h']
    · rw [hq]; exact List.suffix_cons c t
    · exact List.suffix_refl _

theorem wf_afterRead {s : State} (hm : s.mem.wf) (a : Word) : (afterRead a s).mem.wf := by
  rcases afterRead_cases a s with h | ⟨-, h⟩
  · rw [h]; exact hm
  · rcases pollStatus_cases s with ⟨c, t, -, h'⟩ | ⟨-, h'⟩ <;> rw [h, h']
    · simp only [memWrite_mem]
      exact wf_setWord (wf_setWord hm _ _) _ _
    · simp only [memWrite_mem]
      exact wf_setWord hm _ _

/-- A read changes no word but the two keyboard words (spec/20_memory.md R61). -/
theorem word_afterRead {a b : Word} {s : State} (h1 : b ≠ s.cfg.kbsr) (h2 : b ≠ s.cfg.kbdr) :
    (afterRead a s).mem.word b = s.mem.word b := by
  rcases afterRead_cases a s with h | ⟨-, h⟩
  · rw [h]
  · rcases pollStatus_cases s with ⟨c, t, -, h'⟩ | ⟨-, h'⟩ <;> rw [h, h'] <;> simp [h1, h2]

/-! ### Arrival, a read in a step, fetch and cycle -/

@[simp] theorem deliver_reg (s : State) (q : Reg) : (deliver s).reg q = s.reg q := by unfold deliver; split <;> rfl
@[simp] theorem deliver_pc (s : State) : (deliver s).pc = s.pc := by unfold deliver; split <;> rfl
@[simp] theorem deliver_cond (s : State) : (deliver s).cond = s.cond := by unfold deliver; split <;> rfl
@[simp] theorem deliver_run (s : State) : (deliver s).run = s.run := by unfold deliver; split <;> rfl
@[simp] theorem deliver_faultRec (s : State) : (deliver s).faultRec = s.faultRec := by unfold deliver; split <;> rfl
@[simp] theorem deliver_mem (s : State) : (deliver s).mem = s.mem := by unfold deliver; split <;> rfl
@[simp] theorem deliver_conOut (s : State) : (deliver s).conOut = s.conOut := by unfold deliver; split <;> rfl
@[simp] theorem deliver_cfg (s : State) : (deliver s).cfg = s.cfg := by unfold deliver; split <;> rfl

/-- Arrival moves characters from the schedule to the end of the queue, in order. -/
theorem deliver_input (s : State) :
    (deliver s).kbdQ ++ (deliver s).arrivals.flatten = s.kbdQ ++ s.arrivals.flatten := by
  unfold deliver; split <;> simp [*]

/-- What arrives changes the queue and the schedule, and nothing else. -/
theorem deliver_cons {s : State} {batch : List Byte} {later : List (List Byte)} (h : s.arrivals = batch :: later) :
    deliver s = { s with kbdQ := s.kbdQ ++ batch, arrivals := later } := by simp [deliver, h]

theorem deliver_nil {s : State} (h : s.arrivals = []) : deliver s = s := by simp [deliver, h]

theorem deliver_arrivals (s : State) : (deliver s).arrivals = s.arrivals.drop 1 := by
  cases h : s.arrivals with
  | nil => rw [deliver_nil h, h]; rfl
  | cons batch later => rw [deliver_cons h]; rfl

@[simp] theorem readInStep_fst (a : Word) (s : State) : (readInStep a s).1 = (afterRead a (deliver s)).mem.word a := rfl
@[simp] theorem readInStep_snd (a : Word) (s : State) : (readInStep a s).2 = afterRead a (deliver s) := rfl

/-- A read in a step of any address but the status address: the word, and what arrived. -/
theorem readInStep_plain {a : Word} {s : State} (h : a ≠ s.cfg.kbsr) : readInStep a s = (s.mem.word a, deliver s) := by
  simp [readInStep, memRead_plain (s := deliver s) (by simpa using h)]

/-- A read in a step takes the next batch off the schedule. -/
theorem readInStep_arrivals (a : Word) (s : State) : (readInStep a s).2.arrivals = s.arrivals.drop 1 := by
  simp [deliver_arrivals]

/-- All that a read in a step does to the input: nothing is lost or reordered, and a character is taken, from the front, by a
read of the status address only. -/
theorem readInStep_input (a : Word) (s : State) :
    ∃ taken, s.kbdQ ++ s.arrivals.flatten =
        taken ++ ((readInStep a s).2.kbdQ ++ (readInStep a s).2.arrivals.flatten) ∧
      taken.length ≤ if a = s.cfg.kbsr then 1 else 0 := by
  rw [← deliver_input s, readInStep_snd, afterRead_arrivals]
  rcases afterRead_cases a (deliver s) with h | ⟨ha, h⟩
  · exact ⟨[], by rw [h]; rfl, Nat.zero_le _⟩
  · rw [deliver_cfg] at ha
    rw [h, if_pos ha]
    rcases pollStatus_cases (deliver s) with ⟨c, q, hq, h'⟩ | ⟨hq, h'⟩ <;> rw [h', hq]
    · exact ⟨[c], rfl, Nat.le_refl _⟩
    · exact ⟨[], by simp [hq], Nat.zero_le _⟩

theorem wf_readInStep {s : State} (hm : s.mem.wf) (a : Word) : (readInStep a s).2.mem.wf :=
  wf_afterRead (by simpa using hm) a

@[simp] theorem fetch_fst (s : State) : (fetch s).1 = (afterRead s.pc (deliver s)).mem.word s.pc := rfl

/-- The fetch is a read of `pc` and the increment (spec/10_state.md R24). -/
theorem fetch_snd (s : State) : (fetch s).2 = (afterRead s.pc (deliver s)).setPc (s.pc + 1#16) := by simp [fetch]

theorem step_running {s : State} (h : s.run = .running) :
    step s = exec (decodeWord s.fetchedWord) s.fetchedState := by
  simp [step, cycle, h, cycleRunning, State.fetchedWord, State.fetchedState]

theorem step_halted {s : State} (h : s.run = .halted) : step s = .next s := by simp [step, cycle, h, cycleHalted]

theorem step_faulted {s : State} (h : s.run = .faulted) : step s = .fault (.faulted s.faultRec) := by
  simp [step, cycle, h, cycleFaulted]

/-- All that a step that answers a next state can be. -/
theorem step_next_cases {s t : State} (h : step s = .next t) :
    (s.run = .running ∧ exec (decodeWord s.fetchedWord) s.fetchedState = .next t) ∨ (s.run = .halted ∧ t = s) := by
  cases hr : s.run with
  | running => exact .inl ⟨rfl, by rw [← step_running hr]; exact h⟩
  | halted => rw [step_halted hr] at h; injection h with h; exact .inr ⟨rfl, h.symm⟩
  | faulted => rw [step_faulted hr] at h; exact absurd h (by simp)

end Sys2Proof.Machine
end

