-- ==== Sys2Proof/Laws/PerInstr.lean ====
section
/-! SUPPORT. The family of statements made for each constructor of Instr: the word the encoder gives selects, by mask and
value, the constructor's own row of the opcode table (spec/30_encoding.md R97). -/

namespace Sys2Proof.Laws.RowMask

/-- The instruction's word selects its row of the table. -/
def Statement (i : Instr) : Prop :=
  ∃ row, opcodeTable[i.tableRow]? = some row ∧ row.selects (encode i) = true

theorem addReg (dr sr1 sr2 : Reg) : Statement (.addReg dr sr1 sr2) :=
  ⟨_, rfl, selects_operate (by simp only [encode_addReg, BitVec.getLsbD_append]; simp)⟩

theorem addImm (dr sr1 : Reg) (imm5 : BitVec 5) : Statement (.addImm dr sr1 imm5) :=
  ⟨_, rfl, selects_operate (by simp only [encode_addImm, BitVec.getLsbD_append]; simp)⟩

theorem andReg (dr sr1 sr2 : Reg) : Statement (.andReg dr sr1 sr2) :=
  ⟨_, rfl, selects_operate (by simp only [encode_andReg, BitVec.getLsbD_append]; simp)⟩

theorem andImm (dr sr1 : Reg) (imm5 : BitVec 5) : Statement (.andImm dr sr1 imm5) :=
  ⟨_, rfl, selects_operate (by simp only [encode_andImm, BitVec.getLsbD_append]; simp)⟩

theorem not (dr sr : Reg) : Statement (.not dr sr) :=
  ⟨_, rfl, selects_opcode (by simp only [encode_not, BitVec.getLsbD_append]; simp)⟩

theorem br (n z p : Bool) (offset9 : BitVec 9) : Statement (.br n z p offset9) :=
  ⟨_, rfl, selects_opcode (by simp only [encode_br, BitVec.getLsbD_append]; simp)⟩

theorem jmp (baseR : Reg) : Statement (.jmp baseR) :=
  ⟨_, rfl, selects_opcode (by simp only [encode_jmp, BitVec.getLsbD_append]; simp)⟩

theorem jsr (offset11 : BitVec 11) : Statement (.jsr offset11) :=
  ⟨_, rfl, selects_jump (by simp only [encode_jsr, BitVec.getLsbD_append]; simp)⟩

theorem jsrr (baseR : Reg) : Statement (.jsrr baseR) :=
  ⟨_, rfl, selects_jump (by simp only [encode_jsrr, BitVec.getLsbD_append]; simp)⟩

theorem ld (dr : Reg) (offset9 : BitVec 9) : Statement (.ld dr offset9) :=
  ⟨_, rfl, selects_opcode (by simp only [encode_ld, BitVec.getLsbD_append]; simp)⟩

theorem ldi (dr : Reg) (offset9 : BitVec 9) : Statement (.ldi dr offset9) :=
  ⟨_, rfl, selects_opcode (by simp only [encode_ldi, BitVec.getLsbD_append]; simp)⟩

theorem ldr (dr baseR : Reg) (offset6 : BitVec 6) : Statement (.ldr dr baseR offset6) :=
  ⟨_, rfl, selects_opcode (by simp only [encode_ldr, BitVec.getLsbD_append]; simp)⟩

theorem lea (dr : Reg) (offset9 : BitVec 9) : Statement (.lea dr offset9) :=
  ⟨_, rfl, selects_opcode (by simp only [encode_lea, BitVec.getLsbD_append]; simp)⟩

theorem st (sr : Reg) (offset9 : BitVec 9) : Statement (.st sr offset9) :=
  ⟨_, rfl, selects_opcode (by simp only [encode_st, BitVec.getLsbD_append]; simp)⟩

theorem sti (sr : Reg) (offset9 : BitVec 9) : Statement (.sti sr offset9) :=
  ⟨_, rfl, selects_opcode (by simp only [encode_sti, BitVec.getLsbD_append]; simp)⟩

theorem str (sr baseR : Reg) (offset6 : BitVec 6) : Statement (.str sr baseR offset6) :=
  ⟨_, rfl, selects_opcode (by simp only [encode_str, BitVec.getLsbD_append]; simp)⟩

theorem trapGetc : Statement .trapGetc := ⟨_, rfl, by decide⟩

theorem trapOut : Statement .trapOut := ⟨_, rfl, by decide⟩

theorem trapPuts : Statement .trapPuts := ⟨_, rfl, by decide⟩

theorem trapIn : Statement .trapIn := ⟨_, rfl, by decide⟩

theorem trapPutsp : Statement .trapPutsp := ⟨_, rfl, by decide⟩

theorem trapHalt : Statement .trapHalt := ⟨_, rfl, by decide⟩

theorem trapUnknown (unused : BitVec 4) (trapvect8 : BitVec 8) : Statement (.trapUnknown unused trapvect8) :=
  ⟨_, rfl, selects_opcode (by simp only [encode_trapUnknown, BitVec.getLsbD_append]; simp)⟩

theorem reserved1000 (unused : BitVec 12) : Statement (.reserved1000 unused) :=
  ⟨_, rfl, selects_opcode (by simp only [encode_reserved1000, BitVec.getLsbD_append]; simp)⟩

theorem reserved1101 (unused : BitVec 12) : Statement (.reserved1101 unused) :=
  ⟨_, rfl, selects_opcode (by simp only [encode_reserved1101, BitVec.getLsbD_append]; simp)⟩

end Sys2Proof.Laws.RowMask
end

