-- ==== Sys2Proof/Tests/Slice0.lean ====
section
/-! SUPPORT. The model's own tests. Expected values come from spec/95_test_vectors.md, which derives them from the rules, or,
for the decoding tests, from a word written out bit by bit from the formats of spec/30_encoding.md R85 to R93. A witness
theorem gives, for the statement it is named after, states and operands that meet the statement's hypotheses, each clause at
a boundary value of its range. -/

open Sys2Proof Sys2Proof.Machine

namespace Sys2Proof.Tests

/-! ### Helpers -/

/-- The start state of spec/95_test_vectors.md: the word at 0x3000, everything else at reset. -/
def start (w : Nat) : State := State.reset.withFetchWord 16 w

/-- The same at another address. -/
def startAt (a : Word) (w : Nat) : State := (State.reset.setPc a).withFetchWord 16 w

/-- A word put into memory. -/
def poke (a v : Word) (s : State) : State := { s with mem := s.mem.setWord a v }

/-- Pending characters. -/
def pending (q : List Byte) (s : State) : State := { s with kbdQ := q }

/-- A value of the condition register. -/
def withCond (c : Cond) (s : State) : State := { s with cond := c }

/-- A run state. -/
def withRun (r : RunState) (s : State) : State := { s with run := r }

/-- The next state of an outcome. -/
def nextOf : Host.Outcome State Fault Refusal → Option State
  | .next t => some t
  | .fault _ => none
  | .refused _ => none

/-- What is seen of the state after one step. -/
def see {α : Type} (f : State → α) (s : State) : Option α := (nextOf (step s)).map f

/-- A register, `cond` and `pc`. -/
def rcp (r : Reg) (t : State) : Word × Cond × Word := (t.reg r, t.cond, t.pc)

theorem exists_next {o : Host.Outcome State Fault Refusal} (h : (nextOf o).isSome = true) : ∃ t, o = .next t := by
  cases o with
  | next t => exact ⟨t, rfl⟩
  | fault r => cases h
  | refused r => cases h

/-! ### WellFormed refuses the ill-formed term of each check -/

theorem test_wellFormed_refuses_service_vectors :
    [0x20#8, 0x21#8, 0x22#8, 0x23#8, 0x24#8, 0x25#8].all (fun v => !(Instr.trapUnknown 0#4 v).wellFormed) = true := by decide

theorem test_wellFormed_admits_the_neighbours :
    [0x1F#8, 0x26#8].all (fun v => (Instr.trapUnknown 0xF#4 v).wellFormed) = true := by decide

/-! ### Decoding, each word bit by bit from its format; ignored bits set to 1 where the format has them -/

theorem test_decode_addReg : decodeWord 0b0001_010_011_0_11_100#16 = .addReg .r2 .r3 .r4 := by decide
theorem test_decode_addImm : decodeWord 0b0001_011_101_1_10000#16 = .addImm .r3 .r5 0b10000#5 := by decide
theorem test_decode_andReg : decodeWord 0b0101_100_101_0_11_110#16 = .andReg .r4 .r5 .r6 := by decide
theorem test_decode_andImm : decodeWord 0b0101_010_001_1_00001#16 = .andImm .r2 .r1 0b00001#5 := by decide
theorem test_decode_not : decodeWord 0b1001_001_010_000000#16 = .not .r1 .r2 := by decide
theorem test_decode_br : decodeWord 0b0000_1_0_1_100000001#16 = .br true false true 0b100000001#9 := by decide
theorem test_decode_jmp : decodeWord 0b1100_111_011_111111#16 = .jmp .r3 := by decide
theorem test_decode_jsr : decodeWord 0b0100_1_10000000001#16 = .jsr 0b10000000001#11 := by decide
theorem test_decode_jsrr : decodeWord 0b0100_0_11_010_111111#16 = .jsrr .r2 := by decide
theorem test_decode_ld : decodeWord 0b0010_001_100000010#16 = .ld .r1 0b100000010#9 := by decide
theorem test_decode_ldi : decodeWord 0b1010_010_000000001#16 = .ldi .r2 0b000000001#9 := by decide
theorem test_decode_ldr : decodeWord 0b0110_001_010_100001#16 = .ldr .r1 .r2 0b100001#6 := by decide
theorem test_decode_lea : decodeWord 0b1110_111_000000101#16 = .lea .r7 0b000000101#9 := by decide
theorem test_decode_st : decodeWord 0b0011_001_111111111#16 = .st .r1 0b111111111#9 := by decide
theorem test_decode_sti : decodeWord 0b1011_110_000001111#16 = .sti .r6 0b000001111#9 := by decide
theorem test_decode_str : decodeWord 0b0111_001_010_000011#16 = .str .r1 .r2 0b000011#6 := by decide
theorem test_decode_traps :
    [0b1111_1111_00100000#16, 0b1111_0000_00100001#16, 0b1111_0000_00100010#16, 0b1111_0001_00100011#16,
      0b1111_1000_00100100#16, 0b1111_1010_00100101#16].map decodeWord =
    [.trapGetc, .trapOut, .trapPuts, .trapIn, .trapPutsp, .trapHalt] := by decide
theorem test_decode_trapUnknown : decodeWord 0b1111_0101_00100110#16 = .trapUnknown 0b0101#4 0b00100110#8 := by decide
theorem test_decode_reserved1000 : decodeWord 0b1000_000000000001#16 = .reserved1000 0b000000000001#12 := by decide
theorem test_decode_reserved1101 : decodeWord 0b1101_000100100011#16 = .reserved1101 0b000100100011#12 := by decide

theorem test_decodeBytes_high_byte_first :
    decodeBytes [0xF0#8, 0x25#8, 0x12#8] = .ok (.trapHalt, [0x12#8]) := by rfl
theorem test_decodeBytes_refuses_half_a_word : decodeBytes [0xF0#8] = .error .truncated := by rfl

theorem test_decodeTableWord : decodeTableWord 16 0x1061 = some (.addImm .r0 .r1 1#5) := by decide
theorem test_decodeTableWord_refuses_too_large : decodeTableWord 16 0x10000 = none := by decide

/-! ### Primitives (spec/95_test_vectors.md 2.0) -/

theorem test_sext : [sext 0b01111#5, sext 0b10000#5, sext 0b100000#6, sext 0b011111111#9, sext 0b100000000#9,
    sext 0b01111111111#11, sext 0b10000000000#11] =
    [0x000F#16, 0xFFF0#16, 0xFFE0#16, 0x00FF#16, 0xFF00#16, 0x03FF#16, 0xFC00#16] := by decide
theorem test_condOf : [0x0000#16, 0x0001#16, 0x7FFF#16, 0x8000#16, 0xFFFF#16].map condOf = [.z, .p, .p, .n, .n] := by decide
theorem test_zext16 : [0x61#8, 0xFF#8, 0x00#8].map zext16 = [0x0061#16, 0x00FF#16, 0x0000#16] := by decide

/-! ### ADD, AND, NOT (spec/95_test_vectors.md 2.1) -/

theorem test_addReg_overflow : see (rcp .r2) (((start 0x14DC).setReg .r3 0x7FFF).setReg .r4 1) = some (0x8000, .n, 0x3001) := by decide
theorem test_addReg_carry : see (rcp .r2) (((start 0x14C4).setReg .r3 0xFFFF).setReg .r4 1) = some (0, .z, 0x3001) := by decide
theorem test_addImm_source : see (rcp .r0) ((start 0x1061).setReg .r1 5) = some (6, .p, 0x3001) := by decide
theorem test_addImm_negative : see (rcp .r3) (start 0x16FF) = some (0xFFFF, .n, 0x3001) := by decide
theorem test_andReg : see (rcp .r4) (((start 0x5946).setReg .r5 0xF0F0).setReg .r6 0x3C3C) = some (0x3030, .p, 0x3001) := by decide
theorem test_andReg_negative : see (rcp .r4) (((start 0x5946).setReg .r5 0xF0F0).setReg .r6 0xFF00) = some (0xF000, .n, 0x3001) := by decide
theorem test_andImm_source : see (rcp .r2) ((start 0x54B1).setReg .r2 0xFFFF) = some (0xFFF1, .n, 0x3001) := by decide
theorem test_andImm_literal : see (rcp .r2) ((start 0x5461).setReg .r1 5) = some (1, .p, 0x3001) := by decide
theorem test_not_other : see (rcp .r1) ((start 0x9280).setReg .r2 0x00FF) = some (0xFF00, .n, 0x3001) := by decide
theorem test_not_same : see (rcp .r0) ((start 0x903F).setReg .r0 0xFFFF) = some (0, .z, 0x3001) := by decide

/-! ### BR, JMP, JSR, JSRR (spec/95_test_vectors.md 2.2, 2.3) -/

theorem test_br_outcomes :
    [0x0005, 0x0205, 0x0405, 0x0605, 0x0805, 0x0A05, 0x0C05, 0x0E05].map
      (fun w => [Cond.n, .z, .p].map (fun c => see State.pc (withCond c (start w)) == some 0x3006)) =
    [[false, false, false], [false, false, true], [false, true, false], [false, true, true],
     [true, false, false], [true, false, true], [true, true, false], [true, true, true]] := by decide
theorem test_br_wraps : (see State.pc (startAt 0xFFFF 0x0E01), see State.pc (withCond .p (startAt 0 0x03FE))) =
    (some 0x0001, some 0xFFFF) := by decide
theorem test_jmp : see State.pc ((start 0xCEFF).setReg .r3 0x4000) = some 0x4000 := by decide
theorem test_ret : see State.pc ((start 0xC1C0).setReg .r7 0x3005) = some 0x3005 := by decide
theorem test_jsr : see (rcp .r7) (withCond .n (start 0x4805)) = some (0x3001, .n, 0x3006) := by decide
theorem test_jsr_backwards : see (rcp .r7) (start 0x4C00) = some (0x3001, .z, 0x2C01) := by decide
theorem test_jsrr : see (rcp .r7) ((start 0x46BF).setReg .r2 0x5000) = some (0x3001, .z, 0x5000) := by decide
theorem test_jsrr_r7 : see (rcp .r7) ((start 0x41C0).setReg .r7 0x5000) = some (0x3001, .z, 0x3001) := by decide

/-! ### LD, LDI, LDR, LEA (spec/95_test_vectors.md 2.4) -/

theorem test_ld : see (rcp .r1) (poke 0x3003 0xBEEF (start 0x2202)) = some (0xBEEF, .n, 0x3001) := by decide
theorem test_ld_wraps : see (rcp .r1) (poke 0x00F0 0x0077 (startAt 0xFFF0 0x22FF)) = some (0x0077, .p, 0xFFF1) := by decide
theorem test_ldi : see (rcp .r2) (poke 0x4000 0x8001 (poke 0x3002 0x4000 (start 0xA401))) = some (0x8001, .n, 0x3001) := by decide
theorem test_ldr : see (rcp .r1) (poke 0x4000 7 ((start 0x62BF).setReg .r2 0x4001)) = some (7, .p, 0x3001) := by decide
theorem test_ldr_same_register : see (rcp .r1) (poke 0x4000 0xFFFF ((start 0x6240).setReg .r1 0x4000)) = some (0xFFFF, .n, 0x3001) := by decide
theorem test_lea_source : see (rcp .r0) (start 0xE005) = some (0x3006, .p, 0x3001) := by decide
theorem test_lea_zero : see (rcp .r3) (startAt 0x00FF 0xE700) = some (0, .z, 0x0100) := by decide

/-! ### ST, STI, STR (spec/95_test_vectors.md 2.5) -/

theorem test_st : see (fun t => t.mem.word 0x3003) ((start 0x3202).setReg .r1 0xCAFE) = some 0xCAFE := by decide
theorem test_st_itself : see (fun t => (t.mem.word 0x3000, t.run, t.pc)) ((start 0x33FF).setReg .r1 0xF025) =
    some (0xF025, .running, 0x3001) := by decide
theorem test_sti : see (fun t => (t.mem.word 0x4000, t.mem.word 0x3002)) (poke 0x3002 0x4000 ((start 0xB201).setReg .r1 0x1234)) =
    some (0x1234, 0x4000) := by decide
theorem test_str : see (fun t => (t.mem.word 0x4003, t.cond)) (withCond .n (((start 0x7283).setReg .r1 0x5555).setReg .r2 0x4000)) =
    some (0x5555, .n) := by decide
theorem test_str_wraps : see (fun t => t.mem.word 0xFFE0) ((start 0x72A0).setReg .r1 0x00AA) = some 0x00AA := by decide

/-! ### The keyboard words (spec/95_test_vectors.md 2.6) -/

/-- The keyboard: status word, data word, queue. -/
def kbd (t : State) : Word × Word × List Byte := (t.mem.word 0xFE00, t.mem.word 0xFE02, t.kbdQ)

theorem test_kbd_K1 : see (fun t => (t.reg .r0, t.cond, kbd t)) (pending [0x41] (poke 0x3002 0xFE00 (start 0xA001))) =
    some (0x8000, .n, 0x8000, 0x0041, []) := by decide
theorem test_kbd_K4 : see (fun t => (t.reg .r0, t.cond, kbd t)) (pending [0x41] (poke 0x3002 0xFE02 (start 0xA001))) =
    some (0, .z, 0, 0, [0x41]) := by decide
theorem test_kbd_K9 : see (fun t => (t.mem.word 0x8000, kbd t)) (pending [0x41] ((startAt 0xFDF0 0xB20F).setReg .r1 0xBEEF)) =
    some (0xBEEF, 0x8000, 0x0041, []) := by decide
theorem test_kbd_K10 : see (fun t => (t.faultRec, t.pc, t.mem.word 0xFE02)) (pending [0x41] (startAt 0xFE00 0xF025)) =
    some (some ⟨.reservedOpcode, 0x8000⟩, 0xFE01, 0x0041) := by decide

/-! ### The services (spec/95_test_vectors.md 2.7) -/

/-- Register 0, `cond`, `pc`, queue, output. -/
def io (t : State) : Word × Cond × Word × List Byte × List Byte := (t.reg .r0, t.cond, t.pc, t.kbdQ, t.conOut)

theorem test_getc : see io (pending [0x61, 0x62] (withCond .n ((start 0xFF20).setReg .r0 0xFFFF))) =
    some (0x0061, .n, 0x3001, [0x62], []) := by decide
theorem test_getc_waits : see io (start 0xF020) = some (0, .z, 0x3000, [], []) := by decide
theorem test_out : see io ((start 0xF021).setReg .r0 0x1241) = some (0x1241, .z, 0x3001, [], [0x41]) := by decide
theorem test_puts : see io (poke 0x4000 0x0141 (poke 0x4001 0x0100 (poke 0x4002 0x0042 ((start 0xF022).setReg .r0 0x4000)))) =
    some (0x4000, .z, 0x3001, [], [0x41, 0x00, 0x42]) := by decide
theorem test_puts_at_the_top : see State.conOut (poke 0xFFFE 0x41 (poke 0xFFFF 0x42 (poke 0 0x43 ((start 0xF022).setReg .r0 0xFFFE)))) =
    some [0x41, 0x42] := by decide
theorem test_in : see io (pending [0x78] (withCond .n ((start 0xF023).setReg .r0 0x1111))) =
    some (0x0078, .n, 0x3001, [], [0x78]) := by decide
theorem test_putsp : see io (poke 0x4000 0x6948 (poke 0x4001 0x4100 ((start 0xF024).setReg .r0 0x4000))) =
    some (0x4000, .z, 0x3001, [], [0x48, 0x69]) := by decide
theorem test_putsp_at_the_top : see State.conOut (poke 0xFFFF 0x4241 (poke 0 0x4443 ((start 0xF024).setReg .r0 0xFFFF))) =
    some [0x41, 0x42] := by decide
theorem test_halt : see (fun t => (t.run, t.pc, t.conOut)) (start 0xFA25) =
    some (.halted, 0x3001, [0x48, 0x41, 0x4C, 0x54, 0x0A]) := by decide

/-! ### The illegal words (spec/95_test_vectors.md 2.8) -/

/-- Run state, record, `pc`, output. -/
def flt (t : State) : RunState × Option FaultRecord × Word × List Byte := (t.run, t.faultRec, t.pc, t.conOut)

theorem test_reserved1000 : see flt (start 0x8FFF) = some (.faulted, some ⟨.reservedOpcode, 0x8FFF⟩, 0x3001, []) := by decide
theorem test_reserved1101 : see flt (start 0xD123) = some (.faulted, some ⟨.reservedOpcode, 0xD123⟩, 0x3001, []) := by decide
theorem test_trapUnknown : see flt (start 0xF026) = some (.faulted, some ⟨.unknownTrapVector, 0xF026⟩, 0x3001, []) := by decide
theorem test_faulted_takes_no_step :
    ((nextOf (step (start 0xF01F))).map (fun t => (nextOf (step t)).isNone)) = some true := by decide

/-! ### Boot (spec/95_test_vectors.md 2.9) -/

/-- The state an image boots to. -/
def booted (image : List Byte) : Option State := nextOf (boot defaultConfig [] [] image)

theorem test_boot_source : (booted [0x30, 0x00, 0xF0, 0x25]).map (fun t => (t.mem, t.pc)) =
    some ([(0x6000, 0xF0), (0x6001, 0x25)], 0x3000) := by decide
theorem test_boot_fits_at_the_top : (booted [0xFF, 0xFF, 0x12, 0x34]).map (fun t => (t.mem.word 0xFFFF, t.pc)) =
    some (0x1234, 0xFFFF) := by decide
theorem test_boot_refuses :
    [[0xFF, 0xFF, 0x12, 0x34, 0x56, 0x78], [0x30, 0x00, 0xF0], [0x30]].map (fun i => (booted i).isNone) =
    [true, true, true] := by decide

/-! ### Arrivals (spec/20_memory.md R67): LDI with its pointer and its data both at a status address of 0x0000 -/

/-- `LDI R0, #-2` at 0x0001, with KBSR_ADDR = 0x0000. -/
def ldiAtStatus (arrivals : List (List Byte)) : State :=
  let s := startAt 0x0001 0xA1FE
  { s with cfg := { s.cfg with kbsr := 0x0000 }, arrivals := arrivals }

theorem test_arrival_between_the_reads_of_ldi :
    see (fun t => (t.reg .r0, t.mem.word 0xFE02, t.kbdQ)) (ldiAtStatus [[], [], [0x41]]) = some (0x8000, 0x0041, []) := by decide
theorem test_arrival_before_the_pointer_read :
    see (fun t => (t.reg .r0, t.mem.word 0x8000, t.kbdQ)) (poke 0x8000 7 (ldiAtStatus [[], [0x41], [0x42]])) =
      some (7, 7, [0x42]) := by decide
theorem test_arrival_unblocks_getc : see io { start 0xF020 with arrivals := [[0x61]] } =
    some (0x0061, .z, 0x3001, [], []) := by decide

/-! ### Witnesses: the hypotheses of each statement are met -/

/-- A state of the examples whose step answers a next state. -/
theorem start_steps {s : State} (h : (nextOf (step s)).isSome = true) (hr : s.run = .running) :
    s.run = .running ∧ ∃ t, step s = .next t := ⟨hr, exists_next h⟩

theorem witness_ReadPollsOnlyAtTheStatusAddress :
    (0xFDFF#16 ≠ State.reset.cfg.kbsr ∧ 0xFE01#16 ≠ State.reset.cfg.kbsr ∧ 0xFE02#16 ≠ State.reset.cfg.kbsr) ∧
    (State.reset.cfg.wf ∧ (pending [0x41] State.reset).kbdQ = 0x41 :: []) ∧ State.reset.kbdQ = [] := by decide
theorem witness_WriteStoresPlainlyEverywhere : State.reset.cfg.wf ∧ State.reset.kbdQ = [] := by decide
theorem witness_SecondStatusReadLosesTheFirstCharacter :
    (pending [0x41, 0x42] State.reset).cfg.wf ∧ (pending [0x41, 0x42] State.reset).kbdQ = 0x41 :: 0x42 :: [] := by decide
theorem witness_MemoriesOfEqualWordsAreEqual :
    ∃ m n : Memory, m ≠ [] ∧ m.wf ∧ n.wf ∧ ∀ a : Word, m.word a = n.word a :=
  ⟨[(0, 0x01), (131071, 0xFF)], [(0, 0x01), (131071, 0xFF)], by decide, by decide, by decide, fun _ => rfl⟩
theorem witness_DecodeOfEncodeIsTheInstruction :
    (Instr.addReg .r7 .r0 .r7).wellFormed = true ∧ (Instr.trapUnknown 0xF 0x1F).wellFormed = true ∧
    (Instr.trapUnknown 0 0x26).wellFormed = true := by decide
theorem witness_IgnoredBitsDoNotMatter :
    [(0x14C4#16, 0x14DC#16), (0x92BF#16, 0x9280#16), (0xC0C0#16, 0xCEFF#16), (0x4080#16, 0x46BF#16), (0xF025#16, 0xFF25#16)].all
      (fun p => p.1 &&& ~~~(decodeWord p.1).ignoredBits == p.2 &&& ~~~(decodeWord p.1).ignoredBits) = true := by decide
theorem witness_ExactlyTheIllegalWordsFault :
    [0x7FFF, 0x8000, 0x8FFF, 0x9000, 0xCFFF, 0xD000, 0xDFFF, 0xE000, 0xF000, 0xF01F, 0xF020, 0xF025, 0xF026, 0xFFFF].all
      (fun w => (start w).run == .running && (start w).fetchedWord.toNat == w) = true := by decide
theorem witness_StepRunsTheDecodedInstruction :
    (start 0x1061).run = .running ∧ (start 0x1061).pc ≠ (start 0x1061).cfg.kbsr ∧
    decodeBytes [(start 0x1061).mem.byteAt (highCell 0x3000), (start 0x1061).mem.byteAt (lowCell 0x3000)] =
      .ok (.addImm .r0 .r1 1#5, []) := ⟨by decide, by decide, by rfl⟩
theorem witness_StoppedMachineTakesNoStep :
    (withRun .halted State.reset).run = .halted ∧ (withRun .faulted State.reset).run = .faulted := by decide
theorem witness_OnlyTheHaltTrapHalts :
    (start 0xF025).run = .running ∧ decodeWord (start 0xF025).fetchedWord = .trapHalt ∧
    (start 0xF024).run = .running ∧ decodeWord (start 0xF024).fetchedWord ≠ .trapHalt := by decide
theorem witness_ProgramCounterAfterEachInstruction :
    [0x0405, 0x0205, 0xC0C0, 0x4805, 0x41C0, 0x4080, 0x1061, 0xF025, 0x8000].all
      (fun w => decide ((start w).run = .running ∧ ¬ (start w).Waiting)) = true := by decide
theorem witness_WaitingStepChangesNothing : (start 0xF020).Waiting ∧ (start 0xF023).Waiting := by decide

theorem witness_AddRegisterForm : bits 0x14DC#16 12 4 = 0b0001#4 ∧ (0x14DC#16).getLsbD 5 = false := by decide
theorem witness_AddImmediateForm : bits 0x1FFF#16 12 4 = 0b0001#4 ∧ (0x1FFF#16).getLsbD 5 = true := by decide
theorem witness_AndRegisterForm : bits 0x5946#16 12 4 = 0b0101#4 ∧ (0x5946#16).getLsbD 5 = false := by decide
theorem witness_AndImmediateForm : bits 0x54B1#16 12 4 = 0b0101#4 ∧ (0x54B1#16).getLsbD 5 = true := by decide
theorem witness_NotInvertsEachBit : bits 0x92BF#16 12 4 = 0b1001#4 := by decide
theorem witness_BranchIsTakenOnItsCondition : bits 0x0405#16 12 4 = 0b0000#4 ∧
    (true = true ∧ (withCond .n State.reset).cond = .n) ∧ (true = true ∧ State.reset.cond = .z) ∧
    (true = true ∧ (withCond .p State.reset).cond = .p) ∧
    ¬((true = true ∧ State.reset.cond = .n) ∨ (false = true ∧ State.reset.cond = .z) ∨ (true = true ∧ State.reset.cond = .p)) := by
  decide
theorem witness_JumpGoesToTheBaseRegister : bits 0xCEFF#16 12 4 = 0b1100#4 := by decide
theorem witness_JsrLinksAndJumpsRelative : bits 0x4FFF#16 12 4 = 0b0100#4 ∧ (0x4FFF#16).getLsbD 11 = true := by decide
theorem witness_JsrrLinksThenReadsTheBase : bits 0x46BF#16 12 4 = 0b0100#4 ∧ (0x46BF#16).getLsbD 11 = false ∧
    Reg.r6 ≠ Reg.r7 := by decide
theorem witness_LoadPcRelative : bits 0x2202#16 12 4 = 0b0010#4 ∧
    (startAt 0xFDFF 0).pc + sext 0#9 ≠ (startAt 0xFDFF 0).cfg.kbsr ∧
    (startAt 0xFDFF 0).pc + sext 2#9 ≠ (startAt 0xFDFF 0).cfg.kbsr := by decide
theorem witness_LoadIndirect : bits 0xA401#16 12 4 = 0b1010#4 ∧
    (start 0xA401).pc + sext 1#9 ≠ (start 0xA401).cfg.kbsr ∧
    (poke 0x3001 0xFE02 (start 0xA401)).mem.word ((start 0xA401).pc + sext 1#9) ≠ (start 0xA401).cfg.kbsr := by decide
theorem witness_LoadBasePlusOffset : bits 0x62BF#16 12 4 = 0b0110#4 ∧
    ((start 0).setReg .r2 0xFE20).reg .r2 + sext 0b100001#6 ≠ (start 0).cfg.kbsr := by decide
theorem witness_LoadEffectiveAddressSetsTheFlags : bits 0xE005#16 12 4 = 0b1110#4 := by decide
theorem witness_StorePcRelative : bits 0x3202#16 12 4 = 0b0011#4 := by decide
theorem witness_StoreIndirect : bits 0xB201#16 12 4 = 0b1011#4 ∧ pcRelative9 1#9 (start 0) ≠ (start 0).cfg.kbsr := by decide
theorem witness_StoreBasePlusOffset : bits 0x7283#16 12 4 = 0b0111#4 := by decide
theorem witness_NextFetchSeesTheStore :
    ∃ s t, s.run = .running ∧ step s = .next t ∧ (0x3000#16 : Word) ≠ s.cfg.kbsr ∧
      storeAddress (decodeWord s.fetchedWord) s.fetchedState = some 0x3000#16 ∧
      storedRegister (decodeWord s.fetchedWord) = some .r1 := by
  obtain ⟨t, h⟩ := exists_next (o := step (start 0x33FF)) (by decide)
  exact ⟨start 0x33FF, t, by decide, h, by decide, by decide, by decide⟩
theorem witness_GetcTakesTheOldestCharacter : bits 0xFF20#16 12 4 = 0b1111#4 ∧ bits 0xFF20#16 0 8 = 0x20#8 ∧
    (pending [0x61, 0x62] State.reset).kbdQ = 0x61 :: [0x62] ∧
    (start 0xFF20).run = .running ∧ decodeWord (start 0xFF20).fetchedWord = .trapGetc ∧
    (deliver (start 0xFF20)).kbdQ = [] := by decide
theorem witness_OutEmitsTheLowByte : bits 0xF021#16 12 4 = 0b1111#4 ∧ bits 0xF021#16 0 8 = 0x21#8 := by decide
theorem witness_PutsEmitsTheWordString : bits 0xF022#16 12 4 = 0b1111#4 ∧ bits 0xF022#16 0 8 = 0x22#8 := by decide
theorem witness_InEchoesTheCharacter : bits 0xF123#16 12 4 = 0b1111#4 ∧ bits 0xF123#16 0 8 = 0x23#8 ∧
    (pending [0x78] State.reset).kbdQ = 0x78 :: [] ∧
    (start 0xF123).run = .running ∧ decodeWord (start 0xF123).fetchedWord = .trapIn ∧
    (deliver (start 0xF123)).kbdQ = [] := by decide
theorem witness_PutspEmitsThePackedString : bits 0xF024#16 12 4 = 0b1111#4 ∧ bits 0xF024#16 0 8 = 0x24#8 := by decide
theorem witness_HaltEmitsTheNoticeAndStops : bits 0xFA25#16 12 4 = 0b1111#4 ∧ bits 0xFA25#16 0 8 = 0x25#8 := by decide
theorem witness_ServicesPreserveTheOtherRegisters :
    [Instr.trapGetc, .trapOut, .trapPuts, .trapIn, .trapPutsp, .trapHalt].all
      (fun i => (nextOf (exec i State.reset)).isSome) = true := by decide
theorem witness_UnknownVectorFaults :
    [0xF000#16, 0xF01F#16, 0xF026#16, 0xFFFF#16].all (fun w => decide (bits w 12 4 = 0b1111#4 ∧
      ((bits w 0 8).toNat < 0x20 ∨ 0x25 < (bits w 0 8).toNat))) = true := by decide
theorem witness_ReservedOpcodesFault :
    bits 0x8000#16 12 4 = 0b1000#4 ∧ bits 0x8FFF#16 12 4 = 0b1000#4 ∧ bits 0xD000#16 12 4 = 0b1101#4 ∧
    bits 0xDFFF#16 12 4 = 0b1101#4 := by decide
theorem witness_FaultIsPreciseAndRecordsTheWord :
    (start 0xD123).run = .running ∧ illegalReason (decodeWord (start 0xD123).fetchedWord) = some .reservedOpcode ∧
    (start 0xF026).run = .running ∧ illegalReason (decodeWord (start 0xF026).fetchedWord) = some .unknownTrapVector := by decide
theorem witness_OnlySevenInstructionsWriteCond :
    ((start 0xE005).run = .running ∧ ∃ t, step (start 0xE005) = .next t) ∧
    flagDestination (decodeWord (start 0xE005).fetchedWord) = some .r0 ∧
    ((start 0x4805).run = .running ∧ ∃ t, step (start 0x4805) = .next t) ∧
    flagDestination (decodeWord (start 0x4805).fetchedWord) = none :=
  ⟨start_steps (by decide) (by decide), by decide, start_steps (by decide) (by decide), by decide⟩
theorem witness_StepWritesAtMostOneRegister :
    ((start 0x4805).run = .running ∧ ∃ t, step (start 0x4805) = .next t) ∧
    writtenRegister (decodeWord (start 0x4805).fetchedWord) ≠ some .r6 :=
  ⟨start_steps (by decide) (by decide), by decide⟩
theorem witness_OnlyStoresAndStatusReadsWriteMemory :
    ((start 0x3202).run = .running ∧ ∃ t, step (start 0x3202) = .next t) ∧
    storeAddress (decodeWord (start 0x3202).fetchedWord) (start 0x3202).fetchedState ≠ some 0x3002#16 ∧
    (0x3002#16 ≠ (start 0x3202).cfg.kbsr ∧ 0x3002#16 ≠ (start 0x3202).cfg.kbdr) ∧
    storeAddress (decodeWord (start 0x3202).fetchedWord) (start 0x3202).fetchedState ≠ some 0xFE02#16 ∧
    (start 0x3202).pc ≠ (start 0x3202).cfg.kbsr ∧
    (start 0x3202).cfg.kbsr ∉ interfaceReads (decodeWord (start 0x3202).fetchedWord) (start 0x3202).fetchedState :=
  ⟨start_steps (by decide) (by decide), by decide, by decide, by decide, by decide, by decide⟩
theorem witness_OutputIsAppendOnlyAndNeverRead :
    (∃ t, boot defaultConfig [0x41] [] [0x30, 0x00, 0xF0, 0x25] = .next t) ∧ ∃ t, step (start 0xF025) = .next t :=
  ⟨exists_next (by decide), exists_next (by decide)⟩
theorem witness_InputIsTakenInOrder :
    (ldiAtStatus [[], [], [0x41]]).arrivals = [] :: [[], [0x41]] ∧ State.reset.arrivals = [] ∧
    ((ldiAtStatus [[], [], [0x41]]).run = .running ∧ ∃ t, step (ldiAtStatus [[], [], [0x41]]) = .next t) :=
  ⟨by decide, by decide, start_steps (by decide) (by decide)⟩
theorem witness_ParametersNeverChange : ∃ t, step (start 0xF025) = .next t := exists_next (by decide)
theorem witness_StepKeepsTheInvariant : (start 0xD123).Inv ∧ ∃ t, step (start 0xD123) = .next t :=
  ⟨⟨by decide, by decide, by decide, by intro r h; cases h⟩, exists_next (by decide)⟩
theorem witness_BootEstablishesTheInvariant :
    ∃ t, boot defaultConfig [] [[0x41]] [0xFF, 0xFF, 0x12, 0x34] = .next t := exists_next (by decide)
theorem witness_ZeroedMemoryIsWalkedOneWordAStep :
    (State.reset.setPc 0xFFFF).run = .running ∧ (State.reset.setPc 0xFFFF).mem = [] ∧
    (State.reset.setPc 0xFFFF).kbdQ = [] ∧ (State.reset.setPc 0xFFFF).arrivals = [] := by decide
theorem witness_BootLoadsTheImageAtItsOrigin :
    defaultConfig.wf ∧ (0xFFFF#16).toNat + [0x1234#16].length ≤ 65536 ∧ [0x1234#16][0]? = some 0x1234#16 ∧
    (0xFFFE#16).toNat < (0xFFFF#16).toNat ∧ (0x3000#16).toNat + [0xF025#16].length ≤ (0x3001#16).toNat := by decide
theorem witness_BootLeavesTheResetValues :
    ∃ t, boot defaultConfig [0x41] [[0x42]] [0x30, 0x00] = .next t := exists_next (by decide)
theorem witness_MalformedImagesAreRefused :
    defaultConfig.wf ∧ [0x30#8].length < 2 ∧ (2 ≤ [0x30#8, 0x00#8, 0xF0#8].length ∧ [0x30#8, 0x00#8, 0xF0#8].length % 2 = 1) ∧
    65536 < (0xFFFF#16).toNat + [0x1234#16, 0x5678#16].length := by decide

end Sys2Proof.Tests
end

section
/-! SUPPORT. The effects of an instruction: the meaning of every legal instruction is a sequence of primitive operations, and
that of an illegal one is the exception. What each primitive operation keeps, every step keeps. -/

namespace Sys2Proof.Machine

/-! ### The primitive operations -/

/-- One primitive operation of an instruction (spec/00_scope.md R11 to R15): the exception is none of them. -/
inductive Primitive : State → State → Prop where
  | setReg (s : State) (r : Reg) (v : Word) : Primitive s (s.setReg r v)
  | setPc (s : State) (a : Word) : Primitive s (s.setPc a)
  | setcc (s : State) (r : Reg) : Primitive s (setcc r s)
  | read (s : State) (a : Word) : Primitive s (readInStep a s).2
  | write (s : State) (a v : Word) : Primitive s (memWrite a v s)
  | takeChar (s : State) {c : Byte} {q : List Byte} (h : s.kbdQ = c :: q) : Primitive s { s with kbdQ := q }
  | emit (s : State) (bs : List Byte) : Primitive s (conEmit bs s)
  | halt (s : State) : Primitive s (halt s)

namespace Primitive

theorem cfg_eq {s t : State} (h : Primitive s t) : t.cfg = s.cfg := by
  cases h with
  | read => simp
  | _ => rfl

theorem faultRec_eq {s t : State} (h : Primitive s t) : t.faultRec = s.faultRec := by
  cases h with
  | read => simp
  | _ => rfl

theorem run_eq_or_halted {s t : State} (h : Primitive s t) : t.run = s.run ∨ t.run = .halted := by
  cases h with
  | read => simp
  | halt => exact .inr rfl
  | _ => exact .inl rfl

theorem keeps_wf {s t : State} (h : Primitive s t) (hm : s.mem.wf) : t.mem.wf := by
  cases h with
  | read a => exact wf_readInStep hm a
  | write a v => exact wf_setWord hm a v
  | _ => exact hm

end Primitive

/-! ### Sequences of primitive operations -/

/-- Some primitive operations, one after another, lead from `s` to `t`. -/
def Effects (s t : State) : Prop := Relation.ReflTransGen Primitive s t

namespace Effects

/-- What every primitive operation keeps, every sequence of them keeps. -/
theorem keeps {P : State → Prop} (hp : ∀ {u v}, Primitive u v → P u → P v) {s t : State} (h : Effects s t) (hs : P s) :
    P t := by
  induction h with
  | refl => exact hs
  | tail _ hstep ih => exact hp hstep ih

theorem cfg_eq {s t : State} (h : Effects s t) : t.cfg = s.cfg :=
  h.keeps (P := fun u => u.cfg = s.cfg) (fun hp hu => hp.cfg_eq.trans hu) rfl

theorem faultRec_eq {s t : State} (h : Effects s t) : t.faultRec = s.faultRec :=
  h.keeps (P := fun u => u.faultRec = s.faultRec) (fun hp hu => hp.faultRec_eq.trans hu) rfl

theorem keeps_wf {s t : State} (h : Effects s t) (hm : s.mem.wf) : t.mem.wf :=
  h.keeps (P := fun u => u.mem.wf) Primitive.keeps_wf hm

theorem run_eq_or_halted {s t : State} (h : Effects s t) : t.run = s.run ∨ t.run = .halted :=
  h.keeps (P := fun u => u.run = s.run ∨ u.run = .halted)
    (fun hp hu => hp.run_eq_or_halted.elim (fun e => e ▸ hu) .inr) (.inl rfl)

theorem one {s t : State} (h : Primitive s t) : Effects s t := Relation.ReflTransGen.single h

theorem trans {s t u : State} (h : Effects s t) (h' : Effects t u) : Effects s u := Relation.ReflTransGen.trans h h'

end Effects

theorem effects_writeResult (d : Reg) (v : Word) (s : State) : Effects s (writeResult d v s) :=
  (Effects.one (.setReg s d v)).tail (.setcc _ d)

theorem effects_readInStep (a : Word) (s : State) : Effects s (readInStep a s).2 := .one (.read s a)

theorem effects_waitForInput (s : State) : Effects s (waitForInput s) := .one (.setPc s _)

/-- The fetch is a read and a write of `pc`. -/
theorem effects_fetch (s : State) : Effects s s.fetchedState := (effects_readInStep s.pc s).tail (.setPc _ _)

/-! ### The meaning of an instruction -/

theorem execBr_effects (n z p : Bool) (offset9 : BitVec 9) (s : State) :
    ∃ t, execBr n z p offset9 s = .next t ∧ Effects s t := by
  by_cases h : branchTaken n z p s.cond = true
  · exact ⟨_, if_pos h, .one (.setPc s _)⟩
  · exact ⟨s, if_neg h, .refl⟩

theorem execTrapGetc_effects (s : State) : ∃ t, execTrapGetc s = .next t ∧ Effects s t := by
  cases h : s.kbdQ with
  | nil => exact ⟨_, by simp only [execTrapGetc, kbdRead_nil h], effects_waitForInput s⟩
  | cons c q =>
    exact ⟨_, by simp only [execTrapGetc, kbdRead_cons h]; rfl, (Effects.one (.takeChar s h)).tail (.setReg _ _ _)⟩

theorem execTrapIn_effects (s : State) : ∃ t, execTrapIn s = .next t ∧ Effects s t := by
  cases h : s.kbdQ with
  | nil => exact ⟨_, by simp only [execTrapIn, kbdRead_nil h], effects_waitForInput s⟩
  | cons c q =>
    exact ⟨_, by simp only [execTrapIn, kbdRead_cons h]; rfl,
      ((Effects.one (.takeChar s h)).tail (.emit _ _)).tail (.setReg _ _ _)⟩

/-- A legal instruction answers a next state, by primitive operations alone. -/
theorem exec_legal {i : Instr} (hi : illegalReason i = none) (s : State) :
    ∃ t, exec i s = .next t ∧ Effects s t := by
  cases i with
  | addReg | addImm | andReg | andImm | not | lea => exact ⟨_, rfl, effects_writeResult _ _ s⟩
  | ld | ldr => exact ⟨_, rfl, (effects_readInStep _ s).trans (effects_writeResult _ _ _)⟩
  | ldi =>
    exact ⟨_, rfl, ((effects_readInStep _ s).trans (effects_readInStep _ _)).trans (effects_writeResult _ _ _)⟩
  | st | str => exact ⟨_, rfl, .one (.write s _ _)⟩
  | sti => exact ⟨_, rfl, (effects_readInStep _ s).tail (.write _ _ _)⟩
  | br n z p off => exact execBr_effects n z p off s
  | jmp => exact ⟨_, rfl, .one (.setPc s _)⟩
  | jsr | jsrr => exact ⟨_, rfl, (Effects.one (.setReg s _ _)).tail (.setPc _ _)⟩
  | trapGetc => exact execTrapGetc_effects s
  | trapIn => exact execTrapIn_effects s
  | trapOut | trapPuts | trapPutsp => exact ⟨_, rfl, .one (.emit s _)⟩
  | trapHalt => exact ⟨_, rfl, (Effects.one (.emit s _)).tail (.halt _)⟩
  | trapUnknown | reserved1000 | reserved1101 => cases hi

/-- An illegal instruction takes the exception, with its own cause and word (spec/60_exceptions.md R170 to R172). -/
theorem exec_illegal {i : Instr} {c : IllegalReason} (hi : illegalReason i = some c) (s : State) :
    exec i s = .next (raiseIllegalOpcode c (encode i) s) := by
  cases i with
  | trapUnknown | reserved1000 | reserved1101 => cases hi; rfl
  | _ => cases hi

end Sys2Proof.Machine
end

section
/-! SUPPORT. An illegal word is the word of the instruction it decodes to: its row ignores no bit (spec/30_encoding.md R95). -/

namespace Sys2Proof

/-- Two adjacent fields are one. -/
theorem bits_append_bits (ir : Word) (lo m n : Nat) : bits ir (lo + m) n ++ bits ir lo m = bits ir lo (n + m) :=
  BitVec.extractLsb'_append_extractLsb'_eq_extractLsb' rfl

/-- The field of all 16 bits is the word. -/
theorem bits_all (ir : Word) : bits ir 0 16 = ir := BitVec.extractLsb'_eq_self

/-- The opcode field from the four bits that `decodeWord` tests. -/
theorem opcode_eq_of_bits {ir : Word} {v : BitVec 4} (h15 : ir.getLsbD 15 = v.getLsbD 3)
    (h14 : ir.getLsbD 14 = v.getLsbD 2) (h13 : ir.getLsbD 13 = v.getLsbD 1) (h12 : ir.getLsbD 12 = v.getLsbD 0) :
    bits ir 12 4 = v := by
  apply BitVec.eq_of_getLsbD_eq
  intro i hi
  rw [getLsbD_bits]
  interval_cases i
  exacts [h12, h13, h14, h15]

theorem encode_reserved1000_of_opcode {ir : Word} (h : bits ir 12 4 = 0b1000#4) :
    encode (.reserved1000 (bits ir 0 12)) = ir := by
  rw [encode_reserved1000, ← h]
  exact (bits_append_bits ir 0 12 4).trans (bits_all ir)

theorem encode_reserved1101_of_opcode {ir : Word} (h : bits ir 12 4 = 0b1101#4) :
    encode (.reserved1101 (bits ir 0 12)) = ir := by
  rw [encode_reserved1101, ← h]
  exact (bits_append_bits ir 0 12 4).trans (bits_all ir)

theorem encode_trapUnknown_of_opcode {ir : Word} (h : bits ir 12 4 = 0b1111#4) :
    encode (.trapUnknown (bits ir 8 4) (bits ir 0 8)) = ir := by
  rw [encode_trapUnknown, ← h]
  calc bits ir 12 4 ++ bits ir 8 4 ++ bits ir 0 8
      = bits ir 8 8 ++ bits ir 0 8 := congrArg (· ++ bits ir 0 8) (bits_append_bits ir 8 4 4)
    _ = bits ir 0 16 := bits_append_bits ir 0 8 8
    _ = ir := bits_all ir

end Sys2Proof

namespace Sys2Proof.Machine

/-- The only illegal instruction that the trap dispatcher selects. -/
theorem decodeTrap_of_illegal {w : Word} {c : IllegalReason} (h : illegalReason (decodeTrap w) = some c) :
    decodeTrap w = .trapUnknown (bits w 8 4) (bits w 0 8) := by
  revert h
  -- The last case is the one of no service vector.
  fun_cases decodeTrap w
  case case7 => exact fun _ => rfl
  all_goals exact nofun

theorem encode_decodeWord_of_illegal {w : Word} {c : IllegalReason} (h : illegalReason (decodeWord w) = some c) :
    encode (decodeWord w) = w := by
  revert h
  -- Cases 12, 17 and 19 are the opcodes 1000, 1101 and 1111; no other opcode is that of an illegal word.
  fun_cases decodeWord w
  case case12 h12 h13 h14 h15 => exact fun _ => encode_reserved1000_of_opcode (opcode_eq_of_bits h15 h14 h13 h12)
  case case17 h12 h13 h14 h15 => exact fun _ => encode_reserved1101_of_opcode (opcode_eq_of_bits h15 h14 h13 h12)
  case case19 h12 h13 h14 h15 =>
    intro h
    rw [decodeTrap_of_illegal h]
    exact encode_trapUnknown_of_opcode (opcode_eq_of_bits h15 h14 h13 h12)
  all_goals exact nofun

end Sys2Proof.Machine
end

section
/-! SUPPORT. All that a step can do, and what it keeps: the parameters (spec/00_scope.md R6) and the invariant. -/

namespace Sys2Proof.Machine

/-- A step that answers a next state has had effects by primitive operations alone, or has taken the exception for the word
it fetched. -/
theorem step_effects {s t : State} (h : step s = .next t) :
    Effects s t ∨
    (∃ c, illegalReason (decodeWord s.fetchedWord) = some c ∧
      t = raiseIllegalOpcode c s.fetchedWord s.fetchedState) := by
  rcases step_next_cases h with ⟨-, hexec⟩ | ⟨-, rfl⟩
  · cases hi : illegalReason (decodeWord s.fetchedWord) with
    | none =>
      obtain ⟨u, hu, heff⟩ := exec_legal hi s.fetchedState
      cases hu.symm.trans hexec
      exact .inl ((effects_fetch s).trans heff)
    | some c =>
      have hu := exec_illegal hi s.fetchedState
      rw [encode_decodeWord_of_illegal hi] at hu
      cases hu.symm.trans hexec
      exact .inr ⟨c, rfl, rfl⟩
  · exact .inl .refl

/-- FAULTED answers no next state (spec/60_exceptions.md R172). -/
theorem run_ne_faulted_of_step {s t : State} (h : step s = .next t) : s.run ≠ .faulted := by
  rcases step_next_cases h with ⟨hr, -⟩ | ⟨hr, -⟩ <;> simp [hr]

/-- Primitive operations keep the invariant outside FAULTED: they raise no exception and record none. -/
theorem Effects.keeps_inv {s t : State} (h : Effects s t) (hs : s.Inv) (hr : s.run ≠ .faulted) : t.Inv where
  memory := h.keeps_wf hs.memory
  config := h.cfg_eq ▸ hs.config
  recorded := by
    have hrec : s.faultRec = none := not_not.mp fun hne => hr (hs.recorded.mpr hne)
    have hrun : t.run ≠ .faulted := by
      rcases h.run_eq_or_halted with e | e <;> simp [e, hr]
    simp [hrun, h.faultRec_eq, hrec]
  truthful := h.faultRec_eq ▸ hs.truthful

/-- The exception keeps the invariant: the word it records is illegal, with the cause it records. -/
theorem raiseIllegalOpcode_keeps_inv {s : State} (hs : s.Inv) {c : IllegalReason} {w : Word}
    (h : illegalReason (decodeWord w) = some c) : (raiseIllegalOpcode c w s).Inv where
  memory := hs.memory
  config := hs.config
  recorded := by simp
  truthful := by
    rintro r ⟨⟩
    exact h

end Sys2Proof.Machine

open Sys2Proof Sys2Proof.Machine

/-- Settles O53: a step is primitive operations, none of which raises an exception, or ends in the exception for the illegal
word it fetched. -/
theorem stepKeepsTheInvariant : Obligations.StepKeepsTheInvariant := by
  intro s t hs h
  have hr := run_ne_faulted_of_step h
  rcases step_effects h with heff | ⟨c, hc, rfl⟩
  · exact heff.keeps_inv hs hr
  · exact raiseIllegalOpcode_keeps_inv ((effects_fetch s).keeps_inv hs hr) hc

/-- Settles O52: no primitive operation writes a parameter, and neither does the exception. -/
theorem parametersNeverChange : Obligations.ParametersNeverChange := by
  intro s t h
  rcases step_effects h with heff | ⟨c, -, rfl⟩
  · exact heff.cfg_eq
  · exact (effects_fetch s).cfg_eq

end

section
/-! SUPPORT. Sign extension (spec/00_scope.md R9) and `setcc` (R13, spec/10_state.md R29). -/

namespace Sys2Proof.Machine

theorem sext_getLsbD {n : Nat} (v : BitVec n) {i : Nat} (hi : i < 16) :
    (sext v).getLsbD i = if i < n then v.getLsbD i else v.getLsbD (n - 1) := by
  rw [sext, BitVec.getLsbD_signExtend, decide_eq_true hi, Bool.true_and, BitVec.msb_eq_getLsbD_last]

theorem sext_toNat {n : Nat} (hn : n ≤ 16) (v : BitVec n) :
    (sext v).toNat = if v.getLsbD (n - 1) then v.toNat + 65536 - 2 ^ n else v.toNat := by
  have hpow : 2 ^ n ≤ 2 ^ 16 := Nat.pow_le_pow_right (by decide) hn
  have hv : v.toNat < 2 ^ 16 := v.isLt.trans_le hpow
  rw [sext, BitVec.toNat_signExtend, BitVec.toNat_setWidth, Nat.mod_eq_of_lt hv, BitVec.msb_eq_getLsbD_last]
  split <;> omega

theorem sext_toInt {n : Nat} (hn : n ≤ 16) (v : BitVec n) : (sext v).toInt = v.toInt :=
  BitVec.toInt_signExtend_of_le hn

theorem signExtends_of_le {n : Nat} (hn : n ≤ 16) : SignExtends n :=
  fun v => ⟨fun _ => sext_getLsbD v, sext_toNat hn v, sext_toInt hn v⟩

end Sys2Proof.Machine

open Sys2Proof Sys2Proof.Machine

/-- Settles O1: sign extension of a field of any width up to 16, at the four widths and at the source's example. -/
theorem signExtensionFillsTheHighBits : Obligations.SignExtensionFillsTheHighBits :=
  ⟨signExtends_of_le (by decide), signExtends_of_le (by decide), signExtends_of_le (by decide),
    signExtends_of_le (by decide), by decide⟩

/-- Settles O2: `setcc` writes `condOf` of the register to `cond`, which tells the sign, and no other field. -/
theorem setccTellsTheSignOfTheRegister : Obligations.SetccTellsTheSignOfTheRegister := by
  intro r s
  have hcond : CondReflects (s.reg r) (setcc r s).cond := by
    rw [setcc_cond]
    exact condOf_reflects _
  exact ⟨hcond, fun _ => rfl, rfl, ⟨rfl, rfl, rfl, rfl⟩, fun _ => rfl, ⟨rfl, rfl⟩⟩

end

section
/-! SUPPORT. The two instructions that read the keyboard, by what is pending, and BR by the table of spec/10_state.md R25. -/

namespace Sys2Proof.Machine

/-- GETC waits (spec/44_trap.md R153, R163). -/
theorem execTrapGetc_nil {s : State} (h : s.kbdQ = []) : execTrapGetc s = .next (waitForInput s) := by
  simp only [execTrapGetc, kbdRead_nil h]

theorem execTrapGetc_cons {s : State} {c : Byte} {q : List Byte} (h : s.kbdQ = c :: q) :
    execTrapGetc s = .next (State.setReg { s with kbdQ := q } .r0 (zext16 c)) := by
  simp only [execTrapGetc, kbdRead_cons h]

/-- IN waits (spec/44_trap.md R156, R163). -/
theorem execTrapIn_nil {s : State} (h : s.kbdQ = []) : execTrapIn s = .next (waitForInput s) := by
  simp only [execTrapIn, kbdRead_nil h]

theorem execTrapIn_cons {s : State} {c : Byte} {q : List Byte} (h : s.kbdQ = c :: q) :
    execTrapIn s = .next ((conEmit [c] { s with kbdQ := q }).setReg .r0 (zext16 c)) := by
  simp only [execTrapIn, kbdRead_cons h]

/-- BR writes nothing but `pc`. -/
theorem execBr_eq (n z p : Bool) (offset9 : BitVec 9) (s : State) :
    execBr n z p offset9 s = .next (s.setPc (pcAfter (.br n z p offset9) s)) := by
  simp only [execBr, pcAfter, branchTaken_iff, pcRelative9]
  split <;> rfl

/-- All that GETC and IN can do: take the oldest pending character into `x[0]`, IN emitting it, or wait. -/
theorem exec_readsKeyboard_cases {i : Instr} (hi : readsKeyboard i) {s t : State} (h : exec i s = .next t) :
    (∃ c q bs, s.kbdQ = c :: q ∧ t = (conEmit bs { s with kbdQ := q }).setReg .r0 (zext16 c)) ∨
    (s.kbdQ = [] ∧ t = waitForInput s) := by
  cases hq : s.kbdQ with
  | nil =>
    have hexec : exec i s = .next (waitForInput s) := by
      rcases hi with rfl | rfl
      · exact execTrapGetc_nil hq
      · exact execTrapIn_nil hq
    cases hexec.symm.trans h
    exact .inr ⟨rfl, rfl⟩
  | cons c q =>
    left
    rcases hi with rfl | rfl
    · cases (execTrapGetc_cons hq).symm.trans h
      exact ⟨c, q, [], rfl, by simp [conEmit]⟩
    · cases (execTrapIn_cons hq).symm.trans h
      exact ⟨c, q, [c], rfl, rfl⟩

end Sys2Proof.Machine
end

section
/-! SUPPORT. The output is only appended to and never read (spec/10_state.md R37): every operation commutes with a change of
the output so far. -/

namespace Sys2Proof.Machine

/-- The state with another output so far. -/
def State.withConOut (s : State) (o : List Byte) : State := { s with conOut := o }

/-! ### The operations -/

theorem deliver_withConOut (s : State) (o : List Byte) :
    deliver (s.withConOut o) = (deliver s).withConOut o := by
  cases h : s.arrivals with
  | nil => rw [deliver_nil h, deliver_nil (s := s.withConOut o) h]
  | cons batch later => rw [deliver_cons h, deliver_cons (s := s.withConOut o) h]; rfl

theorem pollStatus_withConOut (s : State) (o : List Byte) :
    pollStatus (s.withConOut o) = (pollStatus s).withConOut o := by
  cases h : s.kbdQ with
  | nil => rw [pollStatus_idle h, pollStatus_idle (s := s.withConOut o) h]; rfl
  | cons c q => rw [pollStatus_ready h, pollStatus_ready (s := s.withConOut o) h]; rfl

theorem afterRead_withConOut (a : Word) (s : State) (o : List Byte) :
    afterRead a (s.withConOut o) = (afterRead a s).withConOut o := by
  unfold afterRead
  rw [pollStatus_withConOut]
  exact (apply_ite (State.withConOut · o) ..).symm

theorem readInStep_withConOut (a : Word) (s : State) (o : List Byte) :
    readInStep a (s.withConOut o) = ((readInStep a s).1, (readInStep a s).2.withConOut o) := by
  simp only [readInStep, memRead, deliver_withConOut, afterRead_withConOut]
  rfl

theorem fetch_withConOut (s : State) (o : List Byte) :
    fetch (s.withConOut o) = ((fetch s).1, (fetch s).2.withConOut o) := by
  have hread := readInStep_withConOut s.pc s o
  exact congrArg (fun r : Word × State => (r.1, r.2.setPc (r.2.pc + 1#16))) hread

/-! ### The meaning of an instruction -/

/-- From `s` with any output so far, `f` answers one and the same state, with one and the same bytes appended. -/
def AppendsBlindly (f : State → Host.Outcome State Fault Refusal) (s : State) : Prop :=
  ∃ (t : State) (bs : List Byte), ∀ o, f (s.withConOut o) = .next (t.withConOut (o ++ bs))

/-- What emits nothing has only to commute with a change of the output; the first equation names the state answered. -/
theorem AppendsBlindly.of_silent {f : State → Host.Outcome State Fault Refusal} {s t : State} (_ : f s = .next t)
    (h : ∀ o, f (s.withConOut o) = .next (t.withConOut o)) : AppendsBlindly f s :=
  ⟨t, [], fun o => by rw [List.append_nil, h]⟩

theorem execBr_appendsBlindly (n z p : Bool) (offset9 : BitVec 9) (s : State) :
    AppendsBlindly (execBr n z p offset9) s := by
  by_cases h : branchTaken n z p s.cond = true
  · exact .of_silent (if_pos h) fun o => if_pos h
  · exact .of_silent (if_neg h) fun o => if_neg h

theorem execTrapGetc_appendsBlindly (s : State) : AppendsBlindly execTrapGetc s := by
  cases h : s.kbdQ with
  | nil => exact .of_silent (execTrapGetc_nil h) fun o => execTrapGetc_nil (s := s.withConOut o) h
  | cons c q => exact .of_silent (execTrapGetc_cons h) fun o => execTrapGetc_cons (s := s.withConOut o) h

theorem execTrapIn_appendsBlindly (s : State) : AppendsBlindly execTrapIn s := by
  cases h : s.kbdQ with
  | nil => exact .of_silent (execTrapIn_nil h) fun o => execTrapIn_nil (s := s.withConOut o) h
  | cons c q =>
    exact ⟨State.setReg { s with kbdQ := q } .r0 (zext16 c), [c], fun o => execTrapIn_cons (s := s.withConOut o) h⟩

theorem exec_appendsBlindly (i : Instr) (s : State) : AppendsBlindly (exec i) s := by
  cases i with
  | br => exact execBr_appendsBlindly ..
  | ld | ldi | ldr | sti =>
    refine .of_silent rfl fun o => ?_
    simp only [exec, execLd, execLdi, execLdr, execSti, readInStep_withConOut]
    rfl
  | trapGetc => exact execTrapGetc_appendsBlindly s
  | trapIn => exact execTrapIn_appendsBlindly s
  | trapOut => exact ⟨s, [lowByte (s.reg .r0)], fun o => rfl⟩
  | trapPuts => exact ⟨s, putsScan s.mem scanFuel (s.reg .r0), fun o => rfl⟩
  | trapPutsp => exact ⟨s, putspScan s.mem scanFuel (s.reg .r0), fun o => rfl⟩
  | trapHalt => exact ⟨halt s, s.cfg.haltNotice, fun o => rfl⟩
  | _ => exact .of_silent rfl fun o => rfl

/-- Every step but one from FAULTED, which answers no state. -/
theorem step_appendsBlindly {s t : State} (h : step s = .next t) : AppendsBlindly step s := by
  rcases step_next_cases h with ⟨hr, -⟩ | ⟨hr, -⟩
  · obtain ⟨u, bs, hu⟩ := exec_appendsBlindly (decodeWord s.fetchedWord) s.fetchedState
    refine ⟨u, bs, fun o => ?_⟩
    rw [step_running (s := s.withConOut o) hr, State.fetchedWord, State.fetchedState, fetch_withConOut]
    exact hu o
  · exact .of_silent (step_halted hr) fun o => step_halted (s := s.withConOut o) hr

theorem boot_conOut {cfg : Config} {pending : List Byte} {arrivals : List (List Byte)} {image : List Byte} {t : State}
    (h : boot cfg pending arrivals image = .next t) : t.conOut = [] := by
  revert h
  -- Case 5 is the image that is loaded; the others are refused.
  fun_cases boot cfg pending arrivals image
  case case5 => rintro ⟨⟩; rfl
  all_goals exact nofun

end Sys2Proof.Machine

open Sys2Proof Sys2Proof.Machine

/-- Settles O50: boot leaves the output empty, and every operation of a step commutes with a change of the output so far. -/
theorem outputIsAppendOnlyAndNeverRead : Obligations.OutputIsAppendOnlyAndNeverRead := by
  refine ⟨rfl, fun _ _ _ _ _ h => boot_conOut h, fun s t h => ?_⟩
  obtain ⟨u, bs, hu⟩ := step_appendsBlindly h
  -- The output as it is gives the step that was taken.
  cases h.symm.trans (hu s.conOut)
  exact ⟨bs, rfl, hu⟩

end

section
/-! SUPPORT. The memory list is canonical: it is told by the words it holds (log entries 1, 2). -/

namespace Sys2Proof.Machine

/-- In a canonical memory the entry of a cell is the byte the cell holds, if that is not zero. -/
theorem mem_iff_byteAt {m : Memory} (hm : m.Pairwise (fun c d => c.1 < d.1)) (hne : ∀ c ∈ m, c.2 ≠ Memory.unlisted)
    (c : Host.Cell) : c ∈ m ↔ m.byteAt c.1 = c.2 ∧ c.2 ≠ Memory.unlisted := by
  induction m with
  | nil => simp [eq_comm]
  | cons d m ih =>
    obtain ⟨hd, hp⟩ := List.pairwise_cons.mp hm
    have ih := ih hp fun c hc => hne c (List.mem_cons_of_mem d hc)
    have hdne := hne d List.mem_cons_self
    rw [List.mem_cons, Memory.byteAt]
    by_cases hdc : d.1 = c.1
    · have hc : c ∉ m := fun hc => (hd c hc).ne hdc
      rw [if_pos hdc, or_iff_left hc]
      exact ⟨by rintro rfl; exact ⟨rfl, hdne⟩, fun h => Prod.ext hdc.symm h.1.symm⟩
    · have hc : c ≠ d := fun h => hdc (congrArg Prod.fst h.symm)
      rw [if_neg hdc, or_iff_right hc, ih]

theorem byteAt_of_cellCount_le {m : Memory} (hm : m.wf) {k : Nat} (hk : Memory.cellCount ≤ k) :
    m.byteAt k = Memory.unlisted := by
  by_contra h
  have hmem := (mem_iff_byteAt hm.1 (fun c hc => (hm.2 c hc).1) (k, m.byteAt k)).mpr ⟨rfl, h⟩
  exact absurd (hm.2 _ hmem).2 (Nat.not_lt.mpr hk)

/-- Every cell of the address space is the high or the low cell of a word. -/
theorem cell_cases {k : Nat} (hk : k < Memory.cellCount) : ∃ a : Word, k = highCell a ∨ k = lowCell a := by
  simp only [Memory.cellCount] at hk
  refine ⟨BitVec.ofNat 16 (k / 2), ?_⟩
  simp only [highCell, lowCell, BitVec.toNat_ofNat]
  omega

/-- The cells of the address space are told by the words. -/
theorem byteAt_eq_of_word_eq {m n : Memory} (h : ∀ a : Word, m.word a = n.word a) {k : Nat}
    (hk : k < Memory.cellCount) : m.byteAt k = n.byteAt k := by
  obtain ⟨a, rfl | rfl⟩ := cell_cases hk
  · simpa only [Memory.word, highByte_append] using congrArg highByte (h a)
  · simpa only [Memory.word, lowByte_append] using congrArg lowByte (h a)

/-- Canonical memories with the same bytes are the same list. -/
theorem memory_ext {m n : Memory} (hm : m.wf) (hn : n.wf) (h : ∀ k, m.byteAt k = n.byteAt k) : m = n := by
  refine hm.1.eq_of_mem_iff (r := fun c d : Host.Cell => c.1 < d.1) hn.1 fun c => ?_
  rw [mem_iff_byteAt hm.1 fun c hc => (hm.2 c hc).1, mem_iff_byteAt hn.1 fun c hc => (hn.2 c hc).1, h]

end Sys2Proof.Machine

open Sys2Proof Sys2Proof.Machine

/-- Settles O7: the words tell the bytes, and a canonical list is told by its bytes. -/
theorem memoriesOfEqualWordsAreEqual : Obligations.MemoriesOfEqualWordsAreEqual := by
  intro m n hm hn h
  refine memory_ext hm hn fun k => ?_
  by_cases hk : k < Memory.cellCount
  · exact byteAt_eq_of_word_eq h hk
  · rw [byteAt_of_cellCount_le hm (Nat.not_lt.mp hk), byteAt_of_cellCount_le hn (Nat.not_lt.mp hk)]

end

section
/-! SUPPORT. What the fetch and each instruction do to the run state, `pc`, the registers and `cond`
(spec/10_state.md R20 to R33). -/

namespace Sys2Proof.Machine

/-! ### The fetch -/

@[simp] theorem fetchedState_reg (s : State) (q : Reg) : s.fetchedState.reg q = s.reg q := by
  simp [State.fetchedState, fetch_snd]

@[simp] theorem fetchedState_pc (s : State) : s.fetchedState.pc = s.pc + 1#16 := by
  simp [State.fetchedState, fetch_snd]

@[simp] theorem fetchedState_cond (s : State) : s.fetchedState.cond = s.cond := by
  simp [State.fetchedState, fetch_snd]

@[simp] theorem fetchedState_run (s : State) : s.fetchedState.run = s.run := by
  simp [State.fetchedState, fetch_snd]

/-- A fetch of any address but the status address (spec/20_memory.md R58). -/
theorem fetchedState_plain {s : State} (h : s.pc ≠ s.cfg.kbsr) :
    s.fetchedState = (deliver s).setPc (s.pc + 1#16) := by
  rw [State.fetchedState, fetch_snd, afterRead_plain (s := deliver s) (by simpa using h)]

/-! ### The run state -/

theorem exec_next (i : Instr) (s : State) : ∃ t, exec i s = .next t := by
  cases h : illegalReason i with
  | none => exact (exec_legal h s).imp fun _ ht => ht.1
  | some c => exact ⟨_, exec_illegal h s⟩

theorem exec_halted_iff {i : Instr} {s t : State} (h : exec i s = .next t) (hr : s.run = .running) :
    t.run = .halted ↔ i = .trapHalt := by
  cases i with
  | br => cases (execBr_eq ..).symm.trans h; simp [hr]
  | trapGetc | trapIn =>
    rcases exec_readsKeyboard_cases (by decide) h with ⟨c, q, bs, -, rfl⟩ | ⟨-, rfl⟩ <;> simp [hr]
  | _ => cases h; simp [hr]

/-! ### The program counter -/

theorem exec_pc {i : Instr} {s t : State} (h : exec i s = .next t) (hw : ¬ (readsKeyboard i ∧ s.kbdQ = [])) :
    t.pc = pcAfter i s := by
  cases i with
  | br => cases (execBr_eq ..).symm.trans h; rfl
  | jsrr b =>
    cases h
    by_cases hb : b = .r7
    · subst hb; simp [pcAfter]
    · simp [pcAfter, hb]
  | trapGetc | trapIn =>
    rcases exec_readsKeyboard_cases (by decide) h with ⟨c, q, bs, -, rfl⟩ | ⟨hq, -⟩
    · rfl
    · exact absurd ⟨by decide, hq⟩ hw
  | _ => cases h; simp [pcAfter, pcRelative11]

/-- GETC and IN are words of opcode 1111. -/
theorem opcode_of_readsKeyboard {w : Word} (h : readsKeyboard (decodeWord w)) :
    w.getLsbD 15 = true ∧ w.getLsbD 14 = true := by
  revert h
  -- Case 19 is the opcode 1111.
  fun_cases decodeWord w
  case case19 h12 h13 h14 h15 => exact fun _ => ⟨h15, h14⟩
  all_goals exact nofun

/-- A read of the status address returns 0x8000, 0x0000 or, where the two keyboard words are one, a character widened with
zeros (spec/20_memory.md R52). -/
theorem word_pollStatus (s : State) :
    (pollStatus s).mem.word s.cfg.kbsr = 0x8000#16 ∨ (pollStatus s).mem.word s.cfg.kbsr = 0x0000#16 ∨
    ∃ c, (pollStatus s).mem.word s.cfg.kbsr = zext16 c := by
  rcases pollStatus_cases s with ⟨c, q, -, h⟩ | ⟨-, h⟩ <;> simp only [h, memWrite_mem]
  · by_cases hk : s.cfg.kbsr = s.cfg.kbdr
    · exact .inr (.inr ⟨c, by rw [hk, word_setWord_same]⟩)
    · exact .inl (by rw [word_setWord_other _ _ hk, word_setWord_same])
  · exact .inr (.inl (by rw [word_setWord_same]))

theorem zext16_getLsbD_of_le (c : Byte) {i : Nat} (hi : 8 ≤ i) : (zext16 c).getLsbD i = false := by
  rw [zext16, BitVec.getLsbD_append, if_neg (Nat.not_lt.mpr hi), BitVec.getLsbD_zero]

/-- What a fetch at the status address returns is no TRAP. -/
theorem pc_ne_kbsr_of_readsKeyboard {s : State} (h : readsKeyboard (decodeWord s.fetchedWord)) : s.pc ≠ s.cfg.kbsr := by
  intro hpc
  have hword : s.fetchedWord = (pollStatus (deliver s)).mem.word (deliver s).cfg.kbsr := by
    rw [State.fetchedWord, fetch_fst, hpc, ← deliver_cfg s, afterRead_status]
  obtain ⟨h15, h14⟩ := opcode_of_readsKeyboard h
  rcases word_pollStatus (deliver s) with hw | hw | ⟨c, hw⟩ <;> rw [hword, hw] at h15 h14
  · exact absurd h14 (by decide)
  · exact absurd h15 (by decide)
  · rw [zext16_getLsbD_of_le c (by decide)] at h15
    cases h15

/-- GETC or IN with nothing pending after the fetch is a wait: their fetch polls nothing. -/
theorem waiting_of_readsKeyboard {s : State} (hr : s.run = .running) (hk : readsKeyboard (decodeWord s.fetchedWord))
    (hq : s.fetchedState.kbdQ = []) : s.Waiting := by
  rw [fetchedState_plain (pc_ne_kbsr_of_readsKeyboard hk), setPc_kbdQ] at hq
  exact ⟨hr, hk, by simp [kbdPoll, hq]⟩

/-! ### The registers and `cond` -/

theorem exec_reg {i : Instr} {s t : State} (h : exec i s = .next t) {r : Reg} (hr : writtenRegister i ≠ some r) :
    t.reg r = s.reg r := by
  have hne : ∀ d, writtenRegister i = some d → r ≠ d := by
    rintro d hd rfl
    exact hr hd
  cases i with
  | br => cases (execBr_eq ..).symm.trans h; rfl
  | trapGetc | trapIn =>
    rcases exec_readsKeyboard_cases (by decide) h with ⟨c, q, bs, -, rfl⟩ | ⟨-, rfl⟩
    · exact reg_setReg_other _ _ (hne _ rfl)
    · rfl
  | addReg | addImm | andReg | andImm | not | ld | ldi | ldr | lea | jsr | jsrr => cases h; simp [hne _ rfl]
  | sti => cases h; simp
  | _ => cases h; rfl

theorem exec_cond_same {i : Instr} {s t : State} (h : exec i s = .next t) (hi : flagDestination i = none) :
    t.cond = s.cond := by
  cases i with
  | br => cases (execBr_eq ..).symm.trans h; rfl
  | trapGetc | trapIn =>
    rcases exec_readsKeyboard_cases (by decide) h with ⟨c, q, bs, -, rfl⟩ | ⟨-, rfl⟩ <;> rfl
  | sti => cases h; simp
  | addReg | addImm | andReg | andImm | not | ld | ldi | ldr | lea => cases hi
  | _ => cases h; rfl

theorem exec_cond_flag {i : Instr} {s t : State} (h : exec i s = .next t) {d : Reg} (hi : flagDestination i = some d) :
    CondReflects (t.reg d) t.cond := by
  cases i with
  | addReg | addImm | andReg | andImm | not | ld | ldi | ldr | lea =>
    cases hi; cases h
    rw [writeResult_cond, writeResult_reg_same]
    exact condOf_reflects _
  | _ => cases hi

end Sys2Proof.Machine

open Sys2Proof Sys2Proof.Machine

/-- Settles O16: every instruction answers a next state, and TRAP HALT alone writes HALTED. -/
theorem onlyTheHaltTrapHalts : Obligations.OnlyTheHaltTrapHalts := by
  intro s hr
  obtain ⟨t, ht⟩ := exec_next (decodeWord s.fetchedWord) s.fetchedState
  exact ⟨t, (step_running hr).trans ht, exec_halted_iff ht (by simpa using hr)⟩

/-- Settles O17: `exec_pc`, where no wait is: the fetch of a GETC or IN takes no character. -/
theorem programCounterAfterEachInstruction : Obligations.ProgramCounterAfterEachInstruction := by
  intro s hr hw
  obtain ⟨t, ht⟩ := exec_next (decodeWord s.fetchedWord) s.fetchedState
  refine ⟨fetchedState_pc s, t, (step_running hr).trans ht, ?_, fun hi => ?_⟩
  · exact exec_pc ht fun ⟨hk, hq⟩ => hw (waiting_of_readsKeyboard hr hk hq)
  · exact step_halted ((exec_halted_iff ht (by simpa using hr)).mpr hi)

/-- Settles O47: the seven instructions end with `setcc`, and no other writes `cond`. -/
theorem onlySevenInstructionsWriteCond : Obligations.OnlySevenInstructionsWriteCond := by
  intro s t hr h
  have hexec := (step_running hr).symm.trans h
  exact ⟨fun d => exec_cond_flag hexec, fun hi => (exec_cond_same hexec hi).trans (fetchedState_cond s)⟩

/-- Settles O48: neither the fetch nor the instruction writes another register. -/
theorem stepWritesAtMostOneRegister : Obligations.StepWritesAtMostOneRegister := by
  intro s t hr h r hne
  exact (exec_reg ((step_running hr).symm.trans h) hne).trans (fetchedState_reg s r)

/-- Settles O3: a read after a write, of the same and of another register. -/
theorem registersAreIndependent : Obligations.RegistersAreIndependent :=
  fun s r v => ⟨reg_setReg_same s r v, fun _ hq => reg_setReg_other s v hq⟩

end

section
/-! SUPPORT. The input: the schedule, one batch for each read through the memory interface, and the characters pending and
still to arrive, taken from the front (spec/10_state.md R36, spec/20_memory.md R67). -/

namespace Sys2Proof.Machine

/-- From `s` to `t` at most `n` characters are taken, from the front of those pending and still to arrive, and the others
stay in their order. -/
def TakesAtMost (n : Nat) (s t : State) : Prop :=
  ∃ taken : List Byte, s.kbdQ ++ s.arrivals.flatten = taken ++ (t.kbdQ ++ t.arrivals.flatten) ∧ taken.length ≤ n

namespace TakesAtMost

theorem of_same (n : Nat) {s t : State} (hq : t.kbdQ = s.kbdQ) (ha : t.arrivals = s.arrivals) : TakesAtMost n s t :=
  ⟨[], by rw [hq, ha]; rfl, Nat.zero_le n⟩

theorem trans {m n : Nat} {s t u : State} (h : TakesAtMost m s t) (h' : TakesAtMost n t u) : TakesAtMost (m + n) s u := by
  obtain ⟨a, ha, hm⟩ := h
  obtain ⟨b, hb, hn⟩ := h'
  refine ⟨a ++ b, by rw [ha, hb, List.append_assoc], ?_⟩
  rw [List.length_append]
  exact Nat.add_le_add hm hn

theorem suffix {n : Nat} {s t : State} (h : TakesAtMost n s t) :
    t.kbdQ ++ t.arrivals.flatten <:+ s.kbdQ ++ s.arrivals.flatten := by
  obtain ⟨taken, htaken, -⟩ := h
  exact ⟨taken, htaken.symm⟩

end TakesAtMost

/-! ### Reads, one after another -/

/-- The state after reads of some addresses, in order. -/
def afterReads : List Word → State → State
  | [], s => s
  | a :: as, s => afterReads as (readInStep a s).2

theorem afterReads_arrivals (as : List Word) (s : State) :
    (afterReads as s).arrivals = s.arrivals.drop as.length := by
  induction as generalizing s with
  | nil => rfl
  | cons a as ih =>
    rw [afterReads, ih, readInStep_arrivals, List.drop_drop, List.length_cons, Nat.add_comm]

theorem afterReads_takes (as : List Word) (s : State) : TakesAtMost (as.count s.cfg.kbsr) s (afterReads as s) := by
  induction as generalizing s with
  | nil => exact .of_same 0 rfl rfl
  | cons a as ih =>
    have hrest := ih (readInStep a s).2
    rw [readInStep_snd, afterRead_cfg, deliver_cfg, ← readInStep_snd] at hrest
    have hall := TakesAtMost.trans (readInStep_input a s) hrest
    simpa only [afterReads, List.count_cons, beq_iff_eq, Nat.add_comm] using hall

/-! ### The instruction -/

/-- But for GETC and IN, which read no memory, an instruction leaves the input as its reads leave it. -/
theorem exec_input {i : Instr} {s t : State} (h : exec i s = .next t) (hi : ¬ readsKeyboard i) :
    t.kbdQ = (afterReads (interfaceReads i s) s).kbdQ ∧ t.arrivals = (afterReads (interfaceReads i s) s).arrivals := by
  cases i with
  | br => cases (execBr_eq ..).symm.trans h; exact ⟨rfl, rfl⟩
  | trapGetc | trapIn => exact absurd (by decide) hi
  | _ => cases h; exact ⟨rfl, rfl⟩

theorem exec_arrivals {i : Instr} {s t : State} (h : exec i s = .next t) :
    t.arrivals = s.arrivals.drop (interfaceReads i s).length := by
  by_cases hi : readsKeyboard i
  · rcases exec_readsKeyboard_cases hi h with ⟨c, q, bs, -, rfl⟩ | ⟨-, rfl⟩ <;> rcases hi with rfl | rfl <;> rfl
  · rw [(exec_input h hi).2, afterReads_arrivals]

theorem exec_takes {i : Instr} {s t : State} (h : exec i s = .next t) :
    TakesAtMost ((interfaceReads i s).count s.cfg.kbsr + if readsKeyboard i then 1 else 0) s t := by
  by_cases hi : readsKeyboard i
  · rw [if_pos hi]
    rcases exec_readsKeyboard_cases hi h with ⟨c, q, bs, hq, rfl⟩ | ⟨-, rfl⟩
    · exact ⟨[c], by rw [hq]; rfl, Nat.le_add_left ..⟩
    · exact .of_same _ rfl rfl
  · rw [if_neg hi]
    obtain ⟨hq, ha⟩ := exec_input h hi
    exact (afterReads_takes _ s).trans (.of_same 0 hq ha)

/-! ### The step -/

theorem fetchedState_takes (s : State) : TakesAtMost (if s.pc = s.cfg.kbsr then 1 else 0) s s.fetchedState :=
  readInStep_input s.pc s

theorem fetchedState_arrivals (s : State) : s.fetchedState.arrivals = s.arrivals.drop 1 := readInStep_arrivals s.pc s

@[simp] theorem fetchedState_cfg (s : State) : s.fetchedState.cfg = s.cfg := (effects_fetch s).cfg_eq

theorem step_arrivals {s t : State} (hr : s.run = .running) (h : step s = .next t) :
    t.arrivals = s.arrivals.drop (1 + (interfaceReads (decodeWord s.fetchedWord) s.fetchedState).length) := by
  rw [exec_arrivals ((step_running hr).symm.trans h), fetchedState_arrivals, List.drop_drop]

theorem step_takes {s t : State} (hr : s.run = .running) (h : step s = .next t) :
    TakesAtMost (maxTaken (decodeWord s.fetchedWord) s s.fetchedState) s t := by
  have htakes := (fetchedState_takes s).trans (exec_takes ((step_running hr).symm.trans h))
  rw [fetchedState_cfg, ← Nat.add_assoc] at htakes
  simpa only [maxTaken, List.count_cons, beq_iff_eq, Nat.add_comm] using htakes

end Sys2Proof.Machine

open Sys2Proof Sys2Proof.Machine

/-- Settles O51: each read of the step takes a batch off the schedule and, at the status address, at most a character off the
queue; GETC and IN take at most one more. -/
theorem inputIsTakenInOrder : Obligations.InputIsTakenInOrder := by
  refine ⟨fun s batch later h => deliver_cons h, fun s h => deliver_nil h, fun s t h => ?_,
    fun s t hr h => ⟨step_arrivals hr h, step_takes hr h⟩⟩
  rcases step_next_cases h with ⟨hr, -⟩ | ⟨-, rfl⟩
  · exact (step_takes hr h).suffix
  · exact List.suffix_refl _

end

section
/-! SUPPORT. A step and a run in zeroed memory (spec/10_state.md R26), the step by its decoded word (R24, R80), and the state
at reset (R40). -/

namespace Sys2Proof.Machine

theorem setWord_nil_zero (a : Word) : Memory.setWord [] a 0x0000#16 = [] := rfl

/-- In zeroed memory with nothing pending a read changes nothing: at the status address it stores a zero word. -/
theorem afterRead_zeroed {s : State} (hm : s.mem = []) (hq : s.kbdQ = []) (a : Word) : afterRead a s = s := by
  rcases afterRead_cases a s with h | ⟨-, h⟩
  · exact h
  · rw [h, pollStatus_idle hq, memWrite, hm, setWord_nil_zero, ← hm]

/-- A zero word is a BR of no condition (the spec's decision D1; log entry 8). -/
theorem decodeWord_zero : decodeWord 0x0000#16 = .br false false false 0#9 := by decide

theorem step_zeroed {s : State} (hr : s.run = .running) (hm : s.mem = []) (hq : s.kbdQ = []) (ha : s.arrivals = []) :
    step s = .next (s.setPc (s.pc + 1#16)) := by
  have hread : afterRead s.pc (deliver s) = s := by rw [deliver_nil ha, afterRead_zeroed hm hq]
  have hword : s.fetchedWord = 0x0000#16 := by rw [State.fetchedWord, fetch_fst, hread, hm, word_nil]
  have hstate : s.fetchedState = s.setPc (s.pc + 1#16) := by rw [State.fetchedState, fetch_snd, hread]
  rw [step_running hr, hword, hstate, decodeWord_zero]
  exact execBr_eq false false false 0#9 _

theorem run_succ {s t : State} (h : step s = .next t) (n : Nat) :
    Sys2Proof.core.run (n + 1) s = Sys2Proof.core.run n t := by
  have hcore : Sys2Proof.core.step s = .next t := h
  simp only [Host.Core.run, hcore]

end Sys2Proof.Machine

open Sys2Proof Sys2Proof.Machine

/-- Settles O56, by induction on the number of steps: a step leaves the memory zeroed and the input empty. -/
theorem zeroedMemoryIsWalkedOneWordAStep : Obligations.ZeroedMemoryIsWalkedOneWordAStep := by
  intro n
  induction n with
  | zero =>
    intro s _ _ _ _
    simp only [Host.Core.run, BitVec.add_zero]
  | succ n ih =>
    intro s hr hm hq ha
    have hpc : s.pc + 1#16 + BitVec.ofNat 16 n = s.pc + BitVec.ofNat 16 (n + 1) := by
      rw [BitVec.add_assoc, Nat.add_comm, BitVec.ofNat_add]
    rw [run_succ (step_zeroed hr hm hq ha), ih (s.setPc (s.pc + 1#16)) hr hm hq ha, setPc_pc, hpc]
    rfl

/-- Settles O14: a step is the fetch and then the meaning of the word; away from the status address the fetch is a plain
read. -/
theorem stepRunsTheDecodedInstruction : Obligations.StepRunsTheDecodedInstruction := by
  intro s hr
  refine ⟨?_, fun hpc i hi => ?_⟩
  · rw [step_running hr, State.fetchedState, fetch_snd]
    rfl
  · have hword : decodeWord s.fetchedWord = i := by
      rw [State.fetchedWord, fetch_fst, afterRead_plain (s := deliver s) (by simpa using hpc), deliver_mem]
      cases hi
      rfl
    rw [step_running hr, hword, fetchedState_plain hpc]

/-- Settles O54: zeroed memory is canonical, the default keyboard addresses differ, and there is no record. -/
theorem resetHasTheInvariant : Obligations.ResetHasTheInvariant where
  memory := wf_nil
  config := by decide
  recorded := by decide
  truthful := nofun

/-- Settles O57: the values of `State.reset`; memory with nothing listed is zero. -/
theorem resetHoldsTheTabulatedValues : Obligations.ResetHoldsTheTabulatedValues :=
  ⟨fun r => by cases r <;> rfl, rfl, rfl, rfl, rfl, word_nil, rfl, rfl⟩

end

section
/-! SUPPORT. The memory interface by its clauses: the ready and the idle read of the status address, and the plain store
(spec/20_memory.md R52, R53, R55). -/

namespace Sys2Proof.Machine

theorem zext16_toNat (c : Byte) : (zext16 c).toNat = c.toNat := by
  rw [zext16, BitVec.toNat_append, BitVec.toNat_zero, Nat.zero_shiftLeft, Nat.zero_or]

/-! ### The store -/

theorem memWrite_memSameBut (a v : Word) (s : State) : MemSameBut a s (memWrite a v s) := by
  intro k hhigh hlow
  rw [memWrite_mem, byteAt_setWord, if_neg hlow, if_neg hhigh]

theorem memWrite_onlyWordChanges (a v : Word) (s : State) : OnlyWordChanges a s (memWrite a v s) :=
  ⟨fun _ => rfl, rfl, rfl, ⟨rfl, rfl, rfl, rfl⟩, memWrite_memSameBut a v s, ⟨rfl, rfl⟩⟩

/-! ### The read of the status address with a character pending -/

section Ready
variable {s : State} {c : Byte} {q : List Byte} (h : s.kbdQ = c :: q)
include h

theorem afterRead_status_ready : afterRead s.cfg.kbsr s =
    memWrite s.cfg.kbdr (zext16 c) (memWrite s.cfg.kbsr 0x8000#16 { s with kbdQ := q }) := by
  rw [afterRead_status, pollStatus_ready h]

theorem kbdQ_afterRead_status_ready : (afterRead s.cfg.kbsr s).kbdQ = q := by
  rw [afterRead_status_ready h]
  rfl

theorem statusWord_ready (hwf : s.cfg.wf) : (afterRead s.cfg.kbsr s).mem.word s.cfg.kbsr = 0x8000#16 := by
  rw [afterRead_status_ready h, memWrite_mem, word_setWord_other _ _ hwf, memWrite_mem, word_setWord_same]

theorem dataWord_ready : (afterRead s.cfg.kbsr s).mem.word s.cfg.kbdr = zext16 c := by
  rw [afterRead_status_ready h, memWrite_mem, word_setWord_same]

/-- The data word of a ready status read is read back, any number of times: that read is a plain one. -/
theorem memRead_data_of_ready (hwf : s.cfg.wf) : memRead s.cfg.kbdr (afterRead s.cfg.kbsr s) =
    (zext16 c, afterRead s.cfg.kbsr s) := by
  have hne : s.cfg.kbdr ≠ (afterRead s.cfg.kbsr s).cfg.kbsr := by simpa only [afterRead_cfg] using hwf.symm
  rw [memRead_plain hne, dataWord_ready h]

end Ready

/-! ### The read of the status address with nothing pending -/

theorem afterRead_status_idle {s : State} (h : s.kbdQ = []) :
    afterRead s.cfg.kbsr s = memWrite s.cfg.kbsr 0x0000#16 s := by
  rw [afterRead_status, pollStatus_idle h]

theorem statusWord_idle {s : State} (h : s.kbdQ = []) :
    (afterRead s.cfg.kbsr s).mem.word s.cfg.kbsr = 0x0000#16 := by
  rw [afterRead_status_idle h, memWrite_mem, word_setWord_same]

/-! ### What a read of the status address returns -/

/-- It is told by the queue alone: the word stored there is overwritten before it is returned. -/
theorem statusWord_congr {s t : State} (hwf : s.cfg.wf) (hcfg : t.cfg = s.cfg) (hq : t.kbdQ = s.kbdQ) :
    (afterRead t.cfg.kbsr t).mem.word t.cfg.kbsr = (afterRead s.cfg.kbsr s).mem.word s.cfg.kbsr := by
  cases h : s.kbdQ with
  | nil => rw [statusWord_idle h, statusWord_idle (hq.trans h)]
  | cons c q => rw [statusWord_ready h hwf, statusWord_ready (hq.trans h) (hcfg ▸ hwf)]

end Sys2Proof.Machine

open Sys2Proof Sys2Proof.Machine

/-- Settles O4: a read is plain away from the status address; there it is the ready or the idle read, and either stores in
the keyboard words and takes from the queue alone. -/
theorem readPollsOnlyAtTheStatusAddress : Obligations.ReadPollsOnlyAtTheStatusAddress := by
  refine fun s => ⟨fun a ha => memRead_plain ha, fun hwf c q h => ?_, fun h => ?_, fun a => ?_⟩
  · have hdata : ((memRead s.cfg.kbsr s).2.mem.word s.cfg.kbdr).toNat = c.toNat := by
      rw [memRead_snd, dataWord_ready h, zext16_toNat]
    exact ⟨statusWord_ready h hwf, statusWord_ready h hwf, hdata, fun b => word_afterRead, kbdQ_afterRead_status_ready h⟩
  · have hstate : (memRead s.cfg.kbsr s).2 = memWrite s.cfg.kbsr 0x0000#16 s := afterRead_status_idle h
    refine ⟨statusWord_idle h, statusWord_idle h, ?_, ?_⟩ <;> rw [hstate]
    · exact memWrite_memSameBut _ _ s
    · exact h
  · exact ⟨afterRead_reg a s, afterRead_pc a s, afterRead_cond a s,
      ⟨afterRead_run a s, afterRead_faultRec a s, afterRead_arrivals a s, afterRead_cfg a s⟩, afterRead_conOut a s⟩

/-- Settles O5: a store is one `setWord`; the next status read returns what the queue says, and one that finds no character
stores in the status word alone. -/
theorem writeStoresPlainlyEverywhere : Obligations.WriteStoresPlainlyEverywhere := by
  refine fun a v s => ⟨word_setWord_same s.mem a v, memWrite_onlyWordChanges a v s, fun hwf => ?_, fun hwf => ?_,
    fun hwf h => ?_⟩
  · exact statusWord_congr (t := memWrite s.cfg.kbsr v s) hwf rfl rfl
  · rw [memRead_plain (s := memWrite s.cfg.kbdr v s) hwf.symm]
    exact word_setWord_same s.mem s.cfg.kbdr v
  · have hstate := afterRead_status_idle (s := memWrite s.cfg.kbdr v s) h
    rw [memWrite_cfg] at hstate
    rw [memRead_snd, hstate, memWrite_mem, word_setWord_other _ _ hwf.symm, memWrite_mem, word_setWord_same]

/-- Settles O6: the first status read leaves the second character at the head of the queue, so the second is ready too. -/
theorem secondStatusReadLosesTheFirstCharacter : Obligations.SecondStatusReadLosesTheFirstCharacter := by
  intro s c d q hwf h first second
  have hcfg : first.cfg = s.cfg := afterRead_cfg _ s
  have hq : first.kbdQ = d :: q := kbdQ_afterRead_status_ready h
  have hsecond : second = memRead first.cfg.kbsr first := by rw [hcfg]
  have hwf' : first.cfg.wf := hcfg ▸ hwf
  refine ⟨memRead_data_of_ready h hwf, ?_, ?_, ?_⟩ <;> rw [hsecond]
  · exact statusWord_ready hq hwf'
  · rw [← hcfg]
    exact memRead_data_of_ready hq hwf'
  · exact kbdQ_afterRead_status_ready hq

end

section
/-! SUPPORT. The memory after a step: the reads through the memory interface, then the store (spec/20_memory.md R61, R65). -/

namespace Sys2Proof.Machine

/-! ### Reads, one after another -/

theorem word_readInStep {a b : Word} {s : State} (h1 : b ≠ s.cfg.kbsr) (h2 : b ≠ s.cfg.kbdr) :
    (readInStep a s).2.mem.word b = s.mem.word b := by
  rw [readInStep_snd, word_afterRead (by rwa [deliver_cfg]) (by rwa [deliver_cfg]), deliver_mem]

theorem readInStep_mem_plain {a : Word} {s : State} (h : a ≠ s.cfg.kbsr) : (readInStep a s).2.mem = s.mem := by
  rw [readInStep_plain h, deliver_mem]

theorem readInStep_cfg (a : Word) (s : State) : (readInStep a s).2.cfg = s.cfg := by
  rw [readInStep_snd, afterRead_cfg, deliver_cfg]

theorem word_afterReads (as : List Word) {b : Word} {s : State} (h1 : b ≠ s.cfg.kbsr) (h2 : b ≠ s.cfg.kbdr) :
    (afterReads as s).mem.word b = s.mem.word b := by
  induction as generalizing s with
  | nil => rfl
  | cons a as ih =>
    rw [afterReads, ih (by rwa [readInStep_cfg]) (by rwa [readInStep_cfg]), word_readInStep h1 h2]

theorem afterReads_mem_plain {as : List Word} {s : State} (h : s.cfg.kbsr ∉ as) : (afterReads as s).mem = s.mem := by
  induction as generalizing s with
  | nil => rfl
  | cons a as ih =>
    obtain ⟨ha, has⟩ := List.ne_and_not_mem_of_not_mem_cons h
    rw [afterReads, ih (by rwa [readInStep_cfg]), readInStep_mem_plain ha.symm]

/-! ### The fetch -/

theorem fetchedState_mem (s : State) : s.fetchedState.mem = (readInStep s.pc s).2.mem := rfl

theorem fetchedWord_plain {s : State} (h : s.pc ≠ s.cfg.kbsr) : s.fetchedWord = s.mem.word s.pc := by
  have hread : s.fetchedWord = (readInStep s.pc s).1 := rfl
  rw [hread, readInStep_plain h]

/-! ### The instruction -/

/-- But for the word it stores, an instruction leaves the memory as its reads leave it. -/
theorem exec_word {i : Instr} {s t : State} (h : exec i s = .next t) {b : Word} (hb : storeAddress i s ≠ some b) :
    t.mem.word b = (afterReads (interfaceReads i s) s).mem.word b := by
  have hne : ∀ a, storeAddress i s = some a → b ≠ a := by
    rintro a ha rfl
    exact hb ha
  cases i with
  | st | sti | str => cases h; exact word_setWord_other _ _ (hne _ rfl)
  | br => cases (execBr_eq ..).symm.trans h; rfl
  | trapGetc | trapIn =>
    rcases exec_readsKeyboard_cases (by decide) h with ⟨c, q, bs, -, rfl⟩ | ⟨-, rfl⟩ <;> rfl
  | _ => cases h; rfl

/-- What a store instruction stores, and where. -/
theorem exec_stores {i : Instr} {s t : State} (h : exec i s = .next t) {a : Word} {r : Reg}
    (ha : storeAddress i s = some a) (hr : storedRegister i = some r) : t.mem.word a = s.reg r := by
  cases i with
  | st | str => cases ha; cases hr; cases h; exact word_setWord_same ..
  | sti =>
    cases ha; cases hr; cases h
    rw [memWrite_mem, word_setWord_same, readInStep_snd, afterRead_reg, deliver_reg]
  | _ => cases hr

end Sys2Proof.Machine

open Sys2Proof Sys2Proof.Machine

/-- Settles O36: the store is in the memory of the next state, which the next fetch reads plainly. -/
theorem nextFetchSeesTheStore : Obligations.NextFetchSeesTheStore := by
  intro s t a r hrun h hne ha hr
  have hplain : a ≠ t.cfg.kbsr := by rwa [parametersNeverChange s t h]
  have hstore := exec_stores ((step_running hrun).symm.trans h) ha hr
  calc (t.setPc a).fetchedWord
      = t.mem.word a := fetchedWord_plain (s := t.setPc a) hplain
    _ = s.reg r := hstore.trans (fetchedState_reg s r)

/-- Settles O49: but for its store, a step leaves the memory as its reads leave it, the fetch among them. -/
theorem onlyStoresAndStatusReadsWriteMemory : Obligations.OnlyStoresAndStatusReadsWriteMemory := by
  intro s t b hrun h hb
  rw [exec_word ((step_running hrun).symm.trans h) hb]
  refine ⟨fun h1 h2 => ?_, fun hpc hreads => ?_⟩
  · rw [word_afterReads _ (by rwa [fetchedState_cfg]) (by rwa [fetchedState_cfg]), fetchedState_mem,
      word_readInStep h1 h2]
  · rw [afterReads_mem_plain (by rwa [fetchedState_cfg]), fetchedState_mem, readInStep_mem_plain hpc]

end


section
/-! SUPPORT. The opcode and the trap vector of a word, and the words that are illegal (spec/30_encoding.md R82, R96). -/

namespace Sys2Proof

/-! ### The opcode and the vector -/

/-- The opcode field, by the four bits that `decodeWord` tests. -/
theorem opcode_eq_iff {ir : Word} {v : BitVec 4} : bits ir 12 4 = v ↔
    ir.getLsbD 15 = v.getLsbD 3 ∧ ir.getLsbD 14 = v.getLsbD 2 ∧ ir.getLsbD 13 = v.getLsbD 1 ∧
      ir.getLsbD 12 = v.getLsbD 0 := by
  constructor
  · rintro rfl
    simp only [getLsbD_bits]
    exact ⟨rfl, rfl, rfl, rfl⟩
  · rintro ⟨h15, h14, h13, h12⟩
    exact opcode_eq_of_bits h15 h14 h13 h12

theorem opcode_toNat (w : Word) : (bits w 12 4).toNat = w.toNat / 4096 := by
  have hlt := w.isLt
  rw [bits, BitVec.extractLsb'_toNat, Nat.shiftRight_eq_div_pow]
  omega

theorem vector_toNat (w : Word) : (bits w 0 8).toNat = w.toNat % 256 := by
  rw [bits, BitVec.extractLsb'_toNat, Nat.shiftRight_zero]

theorem isServiceVector_iff (v : BitVec 8) : isServiceVector v = true ↔ 0x20 ≤ v.toNat ∧ v.toNat ≤ 0x25 := by
  simp only [isServiceVector, Bool.or_eq_true, decide_eq_true_eq, BitVec.toNat_eq, BitVec.toNat_ofNat]
  omega

/-- The trap dispatcher selects a service exactly at the service vectors (spec/44_trap.md R151). -/
theorem decodeTrap_eq_unknown_iff (w : Word) :
    decodeTrap w = .trapUnknown (bits w 8 4) (bits w 0 8) ↔ ¬ isServiceVector (bits w 0 8) = true := by
  fun_cases decodeTrap w
  case case7 h20 h21 h22 h23 h24 h25 =>
    change ¬ bits w 0 8 = _ at h20 h21 h22 h23 h24 h25
    exact iff_of_true rfl (by simp [isServiceVector, h20, h21, h22, h23, h24, h25])
  all_goals
    rename_i h
    exact iff_of_false nofun (by simp [isServiceVector, show bits w 0 8 = _ from h])

end Sys2Proof

namespace Sys2Proof.Machine

/-! ### The reserved opcodes and TRAP -/

theorem decodeWord_of_1000 {w : Word} (h : bits w 12 4 = 0b1000#4) : decodeWord w = .reserved1000 (bits w 0 12) := by
  obtain ⟨h15, h14, h13, h12⟩ := opcode_eq_iff.mp h
  rw [decodeWord, h15, h14, h13, h12]
  rfl

theorem decodeWord_of_1101 {w : Word} (h : bits w 12 4 = 0b1101#4) : decodeWord w = .reserved1101 (bits w 0 12) := by
  obtain ⟨h15, h14, h13, h12⟩ := opcode_eq_iff.mp h
  rw [decodeWord, h15, h14, h13, h12]
  rfl

theorem decodeWord_of_1111 {w : Word} (h : bits w 12 4 = 0b1111#4) : decodeWord w = decodeTrap w := by
  obtain ⟨h15, h14, h13, h12⟩ := opcode_eq_iff.mp h
  rw [decodeWord, h15, h14, h13, h12]
  rfl

/-! ### The illegal words -/

theorem opcode_of_illegal {w : Word} {c : IllegalReason} (h : illegalReason (decodeWord w) = some c) :
    bits w 12 4 = 0b1000#4 ∨ bits w 12 4 = 0b1101#4 ∨ bits w 12 4 = 0b1111#4 := by
  revert h
  -- Cases 12, 17 and 19 are the opcodes 1000, 1101 and 1111, as in `encode_decodeWord_of_illegal`.
  fun_cases decodeWord w
  case case12 h12 h13 h14 h15 => exact fun _ => .inl (opcode_eq_of_bits h15 h14 h13 h12)
  case case17 h12 h13 h14 h15 => exact fun _ => .inr (.inl (opcode_eq_of_bits h15 h14 h13 h12))
  case case19 h12 h13 h14 h15 => exact fun _ => .inr (.inr (opcode_eq_of_bits h15 h14 h13 h12))
  all_goals exact nofun

/-- The illegal words by their fields (R96). -/
theorem decodeWord_illegal_iff (w : Word) : (∃ c, illegalReason (decodeWord w) = some c) ↔
    bits w 12 4 = 0b1000#4 ∨ bits w 12 4 = 0b1101#4 ∨
      (bits w 12 4 = 0b1111#4 ∧ ¬ isServiceVector (bits w 0 8) = true) := by
  constructor
  · rintro ⟨c, h⟩
    refine (opcode_of_illegal h).imp_right (Or.imp_right fun hop => ⟨hop, ?_⟩)
    rw [decodeWord_of_1111 hop] at h
    exact (decodeTrap_eq_unknown_iff w).mp (decodeTrap_of_illegal h)
  · rintro (hop | hop | ⟨hop, hvec⟩)
    · exact ⟨_, congrArg illegalReason (decodeWord_of_1000 hop)⟩
    · exact ⟨_, congrArg illegalReason (decodeWord_of_1101 hop)⟩
    · exact ⟨_, congrArg illegalReason ((decodeWord_of_1111 hop).trans ((decodeTrap_eq_unknown_iff w).mpr hvec))⟩

/-- The illegal words by their numbers (R96). -/
theorem decodeWord_illegal_iff_toNat (w : Word) : (∃ c, illegalReason (decodeWord w) = some c) ↔
    (0x8000 ≤ w.toNat ∧ w.toNat ≤ 0x8FFF) ∨ (0xD000 ≤ w.toNat ∧ w.toNat ≤ 0xDFFF) ∨
    (0xF000 ≤ w.toNat ∧ ¬(0x20 ≤ w.toNat % 256 ∧ w.toNat % 256 ≤ 0x25)) := by
  have hlt := w.isLt
  rw [decodeWord_illegal_iff, isServiceVector_iff, vector_toNat]
  simp only [BitVec.toNat_eq, opcode_toNat, BitVec.toNat_ofNat]
  omega

/-! ### The run state -/

/-- The exception alone enters FAULTED. -/
theorem exec_faulted_iff {i : Instr} {s t : State} (h : exec i s = .next t) (hr : s.run = .running) :
    t.run = .faulted ↔ ∃ c, illegalReason i = some c := by
  cases hi : illegalReason i with
  | none =>
    obtain ⟨u, hu, heff⟩ := exec_legal hi s
    cases hu.symm.trans h
    rcases heff.run_eq_or_halted with e | e <;> simp [e, hr]
  | some c =>
    cases (exec_illegal hi s).symm.trans h
    simp

end Sys2Proof.Machine

open Sys2Proof Sys2Proof.Machine

/-- Settles O13: FAULTED is entered by the illegal instructions alone, and these are the words of R96. -/
theorem exactlyTheIllegalWordsFault : Obligations.ExactlyTheIllegalWordsFault := by
  intro s hr
  obtain ⟨t, ht⟩ := exec_next (decodeWord s.fetchedWord) s.fetchedState
  exact ⟨t, (step_running hr).trans ht,
    (exec_faulted_iff ht (by simpa using hr)).trans (decodeWord_illegal_iff_toNat s.fetchedWord)⟩

end

section
/-! SUPPORT. The row of a word in the opcode table (spec/30_encoding.md R97): the word selects the row of its instruction,
and no word selects two rows but for a trap service and TRAP.unknown, which the table lists later. -/

namespace Sys2Proof

/-! ### Masks and fields -/

theorem bits_and (v w : Word) (lo len : Nat) : bits (v &&& w) lo len = bits v lo len &&& bits w lo len :=
  BitVec.extractLsb'_and

/-- A word is its three fields of F-TRAP (spec/30_encoding.md R93). -/
theorem eq_of_trap_fields {v w : Word} (hop : bits v 12 4 = bits w 12 4) (hmid : bits v 8 4 = bits w 8 4)
    (hvec : bits v 0 8 = bits w 0 8) : v = w := by
  have hjoin (x : Word) : (bits x 12 4 ++ bits x 8 4) ++ bits x 0 8 = x := by
    rw [bits_append_bits x 8 4 4, bits_append_bits x 0 8 8, bits_all]
  rw [← hjoin v, ← hjoin w, hop, hmid, hvec]

/-! ### A word selects the row of its instruction -/

/-- A row of a trap service, which fixes the opcode and the vector. -/
theorem selects_service {mn fmt : String} {v w : Word} (hop : bits w 12 4 = bits v 12 4) (hvec : bits w 0 8 = bits v 0 8)
    (hv : v &&& 0xF0FF#16 = v) : (⟨mn, fmt, 0xF0FF#16, v⟩ : TableRow).selects w = true := by
  have hmid : bits 0xF0FF#16 8 4 = 0#4 := by decide
  have hmask : w &&& 0xF0FF#16 = v &&& 0xF0FF#16 := by
    apply eq_of_trap_fields <;> simp only [bits_and, hop, hvec, hmid, BitVec.and_zero]
  simp only [TableRow.selects, decide_eq_true_eq]
  exact hmask.trans hv

theorem decodeTrap_selects {w : Word} (hop : bits w 12 4 = 0b1111#4) :
    ∃ r, opcodeTable[(decodeTrap w).tableRow]? = some r ∧ r.selects w = true := by
  fun_cases decodeTrap w
  case case7 => exact ⟨_, rfl, selects_opcode ⟨opcode_eq_iff.mp hop, by decide⟩⟩
  all_goals exact ⟨_, rfl, selects_service hop ‹_› (by decide)⟩

theorem decodeWord_selects (w : Word) :
    ∃ r, opcodeTable[(decodeWord w).tableRow]? = some r ∧ r.selects w = true := by
  fun_cases decodeWord w
  case case2 h12 h13 h14 h15 h5 | case8 h12 h13 h14 h15 h5 =>
    exact ⟨_, rfl, selects_operate ⟨⟨h15, h14, h13, h12, h5⟩, by decide⟩⟩
  case case3 h12 h13 h14 h15 h5 | case9 h12 h13 h14 h15 h5 =>
    exact ⟨_, rfl, selects_operate ⟨⟨h15, h14, h13, h12, Bool.eq_false_of_not_eq_true h5⟩, by decide⟩⟩
  case case6 h12 h13 h14 h15 h11 =>
    exact ⟨_, rfl, selects_jump ⟨⟨h15, h14, h13, h12, h11⟩, by decide⟩⟩
  case case7 h12 h13 h14 h15 h11 =>
    exact ⟨_, rfl, selects_jump ⟨⟨h15, h14, h13, h12, Bool.eq_false_of_not_eq_true h11⟩, by decide⟩⟩
  case case19 h12 h13 h14 h15 => exact decodeTrap_selects (opcode_eq_of_bits h15 h14 h13 h12)
  all_goals
    rename_i h12 h13 h14 h15
    exact ⟨_, rfl, selects_opcode ⟨⟨h15, h14, h13, h12⟩, by decide⟩⟩

/-! ### No earlier row -/

/-- Two rows that one word selects agree on the bits that both fix. -/
theorem values_agree_of_selects {r q : TableRow} {w : Word} (hr : r.selects w = true) (hq : q.selects w = true) :
    r.value &&& q.mask = q.value &&& r.mask := by
  simp only [TableRow.selects, decide_eq_true_eq] at hr hq
  rw [← hr, ← hq, BitVec.and_assoc, BitVec.and_comm r.mask, ← BitVec.and_assoc]

/-- Where two rows agree on the bits that both fix, the later is TRAP.unknown and the earlier a trap service. -/
theorem agreeing_rows : ∀ i < opcodeTable.length, ∀ j < i, ∀ r ∈ opcodeTable[i]?, ∀ q ∈ opcodeTable[j]?,
    r.value &&& q.mask = q.value &&& r.mask → i = 22 ∧ bits q.mask 0 8 = BitVec.allOnes 8 ∧
      isServiceVector (bits q.value 0 8) = true := by
  decide

/-- A row that fixes the vector gives the vector of a word that selects it. -/
theorem vector_of_selects {r : TableRow} {w : Word} (h : r.selects w = true) (hm : bits r.mask 0 8 = BitVec.allOnes 8) :
    bits w 0 8 = bits r.value 0 8 := by
  simp only [TableRow.selects, decide_eq_true_eq] at h
  rw [← h, bits_and, hm, BitVec.and_allOnes]

end Sys2Proof

namespace Sys2Proof.Machine

theorem illegalReason_of_tableRow_unknown {i : Instr} (h : i.tableRow = 22) : illegalReason i = some .unknownTrapVector := by
  cases i with
  | trapUnknown => rfl
  | _ => cases h

/-- The row of TRAP.unknown is that of no service's vector. -/
theorem not_isServiceVector_of_tableRow_unknown {w : Word} (h : (decodeWord w).tableRow = 22) :
    ¬ isServiceVector (bits w 0 8) = true := by
  revert h
  -- Case 19 is the opcode 1111.
  fun_cases decodeWord w
  case case19 =>
    exact fun h => (decodeTrap_eq_unknown_iff w).mp (decodeTrap_of_illegal (illegalReason_of_tableRow_unknown h))
  all_goals exact nofun

theorem not_selects_earlier_row {w : Word} {j : Nat} {q : TableRow} (hj : j < (decodeWord w).tableRow)
    (hq : opcodeTable[j]? = some q) : ¬ q.selects w = true := by
  intro hsel
  obtain ⟨r, hr, hrsel⟩ := decodeWord_selects w
  obtain ⟨hlt, -⟩ := List.getElem?_eq_some_iff.mp hr
  obtain ⟨hrow, hmask, hservice⟩ := agreeing_rows _ hlt j hj r hr q hq (values_agree_of_selects hrsel hsel)
  rw [← vector_of_selects hsel hmask] at hservice
  exact not_isServiceVector_of_tableRow_unknown hrow hservice

end Sys2Proof.Machine

open Sys2Proof Sys2Proof.Machine

/-- Settles O12: a word selects the row of its instruction and no earlier one. -/
theorem decodeSelectsTheFirstMatchingRow : Obligations.DecodeSelectsTheFirstMatchingRow := by
  intro w
  obtain ⟨r, hr, hsel⟩ := decodeWord_selects w
  obtain ⟨hlt, rfl⟩ := List.getElem?_eq_some_iff.mp hr
  refine List.findIdx?_eq_some_iff_getElem.mpr ⟨hlt, hsel, fun j hj => ?_⟩
  exact not_selects_earlier_row hj (List.getElem?_eq_getElem (hj.trans hlt))

end

section
/-! SUPPORT. ADD, AND, NOT: the words of each form (spec/30_encoding.md R82, R85 to R87), the register, flag and frame of a result
(spec/10_state.md R30), and the result of each form (spec/40_arith_logic.md R110 to R114). -/

namespace Sys2Proof.Machine

/-! ### The words -/

theorem decodeWord_of_0001 {w : Word} (h : bits w 12 4 = 0b0001#4) :
    decodeWord w = bif w.getLsbD 5 then .addImm (regField w 9) (regField w 6) (bits w 0 5)
      else .addReg (regField w 9) (regField w 6) (regField w 0) := by
  obtain ⟨h15, h14, h13, h12⟩ := opcode_eq_iff.mp h
  rw [decodeWord, h15, h14, h13, h12, Bool.cond_eq_ite]
  rfl

theorem decodeWord_of_0101 {w : Word} (h : bits w 12 4 = 0b0101#4) :
    decodeWord w = bif w.getLsbD 5 then .andImm (regField w 9) (regField w 6) (bits w 0 5)
      else .andReg (regField w 9) (regField w 6) (regField w 0) := by
  obtain ⟨h15, h14, h13, h12⟩ := opcode_eq_iff.mp h
  rw [decodeWord, h15, h14, h13, h12, Bool.cond_eq_ite]
  rfl

theorem decodeWord_of_1001 {w : Word} (h : bits w 12 4 = 0b1001#4) :
    decodeWord w = .not (regField w 9) (regField w 6) := by
  obtain ⟨h15, h14, h13, h12⟩ := opcode_eq_iff.mp h
  rw [decodeWord, h15, h14, h13, h12]
  rfl

/-! ### A result and its flag -/

theorem writeResult_condReflects (d : Reg) (v : Word) (s : State) :
    CondReflects ((writeResult d v s).reg d) (writeResult d v s).cond := by
  rw [writeResult_reg_same, writeResult_cond]
  exact condOf_reflects v

theorem writeResult_onlyResultChanges (d : Reg) (v : Word) (s : State) : OnlyResultChanges d s (writeResult d v s) :=
  ⟨fun _ hr => writeResult_reg_other v s hr, rfl, ⟨rfl, rfl, rfl, rfl⟩, fun _ => rfl, ⟨rfl, rfl⟩⟩

/-! ### The result of each form -/

theorem exec_addReg (d a b : Reg) (s : State) :
    exec (.addReg d a b) s = .next (writeResult d (s.reg a + s.reg b) s) := rfl

theorem exec_addImm (d a : Reg) (imm : BitVec 5) (s : State) :
    exec (.addImm d a imm) s = .next (writeResult d (s.reg a + sext imm) s) := rfl

theorem exec_andReg (d a b : Reg) (s : State) :
    exec (.andReg d a b) s = .next (writeResult d (s.reg a &&& s.reg b) s) := rfl

theorem exec_andImm (d a : Reg) (imm : BitVec 5) (s : State) :
    exec (.andImm d a imm) s = .next (writeResult d (s.reg a &&& sext imm) s) := rfl

theorem exec_not (d a : Reg) (s : State) : exec (.not d a) s = .next (writeResult d (~~~(s.reg a)) s) := rfl

end Sys2Proof.Machine

open Sys2Proof Sys2Proof.Machine

/-- Settles O20: bit 5 clear selects the register form, which writes the sum as its result. -/
theorem addRegisterForm : Obligations.AddRegisterForm := by
  refine ⟨fun w hop h5 => ?_, fun d a b s => ⟨_, exec_addReg d a b s, ?_, writeResult_condReflects d _ s,
    writeResult_onlyResultChanges d _ s⟩⟩
  · rw [decodeWord_of_0001 hop, h5, cond_false]
  · rw [writeResult_reg_same]
    exact BitVec.toNat_add _ _

/-- Settles O21: bit 5 set selects the immediate form, which writes the sum as its result. -/
theorem addImmediateForm : Obligations.AddImmediateForm := by
  refine ⟨fun w hop h5 => ?_, fun d a imm s => ⟨_, exec_addImm d a imm s, ?_, writeResult_condReflects d _ s,
    writeResult_onlyResultChanges d _ s⟩⟩
  · rw [decodeWord_of_0001 hop, h5, cond_true]
  · rw [writeResult_reg_same]
    exact BitVec.toNat_add _ _

/-- Settles O22: bit 5 clear selects the register form, which writes the AND as its result. -/
theorem andRegisterForm : Obligations.AndRegisterForm := by
  refine ⟨fun w hop h5 => ?_, fun d a b s => ⟨_, exec_andReg d a b s, fun i => ?_, writeResult_condReflects d _ s,
    writeResult_onlyResultChanges d _ s⟩⟩
  · rw [decodeWord_of_0101 hop, h5, cond_false]
  · rw [writeResult_reg_same, BitVec.getLsbD_and]

/-- Settles O23: bit 5 set selects the immediate form, which writes the AND as its result. -/
theorem andImmediateForm : Obligations.AndImmediateForm := by
  refine ⟨fun w hop h5 => ?_, fun d a imm s => ⟨_, exec_andImm d a imm s, fun i => ?_, writeResult_condReflects d _ s,
    writeResult_onlyResultChanges d _ s⟩⟩
  · rw [decodeWord_of_0101 hop, h5, cond_true]
  · rw [writeResult_reg_same, BitVec.getLsbD_and]

/-- Settles O24: the complement, written as the result, is 0xFFFF minus the source. -/
theorem notInvertsEachBit : Obligations.NotInvertsEachBit := by
  refine ⟨fun w hop => decodeWord_of_1001 hop, fun d a s => ⟨_, exec_not d a s, ?_, writeResult_condReflects d _ s,
    writeResult_onlyResultChanges d _ s⟩⟩
  rw [writeResult_reg_same]
  exact BitVec.toNat_not

end

section
/-! SUPPORT. BR, JMP, JSR, JSRR: the words of each (spec/30_encoding.md R82, R88 to R90), the frames of a jump and of a jump
that writes a register, and what each does (spec/41_control.md R120 to R123). -/

namespace Sys2Proof.Machine

/-! ### The words -/

theorem decodeWord_of_0000 {w : Word} (h : bits w 12 4 = 0b0000#4) :
    decodeWord w = .br (w.getLsbD 11) (w.getLsbD 10) (w.getLsbD 9) (bits w 0 9) := by
  obtain ⟨h15, h14, h13, h12⟩ := opcode_eq_iff.mp h
  rw [decodeWord, h15, h14, h13, h12]
  rfl

theorem decodeWord_of_0100 {w : Word} (h : bits w 12 4 = 0b0100#4) :
    decodeWord w = bif w.getLsbD 11 then .jsr (bits w 0 11) else .jsrr (regField w 6) := by
  obtain ⟨h15, h14, h13, h12⟩ := opcode_eq_iff.mp h
  rw [decodeWord, h15, h14, h13, h12, Bool.cond_eq_ite]
  rfl

theorem decodeWord_of_1100 {w : Word} (h : bits w 12 4 = 0b1100#4) : decodeWord w = .jmp (regField w 6) := by
  obtain ⟨h15, h14, h13, h12⟩ := opcode_eq_iff.mp h
  rw [decodeWord, h15, h14, h13, h12]
  rfl

/-! ### The frames of a jump -/

theorem setPc_onlyPcChanges (a : Word) (s : State) : OnlyPcChanges s (s.setPc a) :=
  ⟨fun _ => rfl, rfl, ⟨rfl, rfl, rfl, rfl⟩, fun _ => rfl, ⟨rfl, rfl⟩⟩

theorem setReg_setPc_onlyPcAndRegChange (d : Reg) (v a : Word) (s : State) :
    OnlyPcAndRegChange d s ((s.setReg d v).setPc a) :=
  ⟨fun _ hr => reg_setReg_other s v hr, rfl, ⟨rfl, rfl, rfl, rfl⟩, fun _ => rfl, ⟨rfl, rfl⟩⟩

/-! ### What each instruction does -/

theorem exec_jmp (b : Reg) (s : State) : exec (.jmp b) s = .next (s.setPc (s.reg b)) := rfl

theorem exec_jsr (off : BitVec 11) (s : State) :
    exec (.jsr off) s = .next ((s.setReg .r7 s.pc).setPc (s.pc + sext off)) := rfl

/-- The base register is read after the link is written (spec/41_control.md R123; log entry 24). -/
theorem exec_jsrr (b : Reg) (s : State) :
    exec (.jsrr b) s = .next ((s.setReg .r7 s.pc).setPc ((s.setReg .r7 s.pc).reg b)) := rfl

end Sys2Proof.Machine

open Sys2Proof Sys2Proof.Machine

/-- Settles O25: BR sets `pc` by the table of spec/10_state.md R25, which splits on the branch condition. -/
theorem branchIsTakenOnItsCondition : Obligations.BranchIsTakenOnItsCondition := by
  refine ⟨fun w hop => decodeWord_of_0000 hop, fun n z p off s => ⟨_, execBr_eq n z p off s, fun htaken => ?_,
    fun hnot => ?_, setPc_onlyPcChanges _ s⟩⟩
  · exact if_pos htaken
  · exact if_neg hnot

/-- Settles O26: JMP sets `pc` to the base register. -/
theorem jumpGoesToTheBaseRegister : Obligations.JumpGoesToTheBaseRegister :=
  ⟨fun _ hop => decodeWord_of_1100 hop, fun b s => ⟨_, exec_jmp b s, setPc_pc s _, setPc_onlyPcChanges _ s⟩⟩

/-- Settles O27: bit 11 set selects JSR, which links and then jumps relative to the incremented `pc`. -/
theorem jsrLinksAndJumpsRelative : Obligations.JsrLinksAndJumpsRelative := by
  refine ⟨fun w hop h11 => ?_, fun off s => ⟨_, exec_jsr off s, ?_, setPc_pc _ _,
    setReg_setPc_onlyPcAndRegChange .r7 _ _ s⟩⟩
  · rw [decodeWord_of_0100 hop, h11, cond_true]
  · rw [setPc_reg, reg_setReg_same]

/-- Settles O28: bit 11 clear selects JSRR, whose base register, read after the link, is the link itself where it is `x[7]`. -/
theorem jsrrLinksThenReadsTheBase : Obligations.JsrrLinksThenReadsTheBase := by
  refine ⟨fun w hop h11 => ?_, fun b s => ⟨_, exec_jsrr b s, ?_, fun hb => ?_, fun hb => ?_,
    setReg_setPc_onlyPcAndRegChange .r7 _ _ s⟩⟩
  · rw [decodeWord_of_0100 hop, h11, cond_false]
  · rw [setPc_reg, reg_setReg_same]
  · rw [setPc_pc, reg_setReg_other s _ hb]
  · rw [setPc_pc, hb, reg_setReg_same]

end

section
/-! SUPPORT. LD, LDI, LDR, LEA: the words of each (spec/30_encoding.md R82, R91, R92), the load of the word at an address, and
what each does (spec/42_loads.md R130 to R133). -/

namespace Sys2Proof.Machine

/-! ### The words -/

theorem decodeWord_of_0010 {w : Word} (h : bits w 12 4 = 0b0010#4) : decodeWord w = .ld (regField w 9) (bits w 0 9) := by
  obtain ⟨h15, h14, h13, h12⟩ := opcode_eq_iff.mp h
  rw [decodeWord, h15, h14, h13, h12]
  rfl

theorem decodeWord_of_0110 {w : Word} (h : bits w 12 4 = 0b0110#4) :
    decodeWord w = .ldr (regField w 9) (regField w 6) (bits w 0 6) := by
  obtain ⟨h15, h14, h13, h12⟩ := opcode_eq_iff.mp h
  rw [decodeWord, h15, h14, h13, h12]
  rfl

theorem decodeWord_of_1010 {w : Word} (h : bits w 12 4 = 0b1010#4) : decodeWord w = .ldi (regField w 9) (bits w 0 9) := by
  obtain ⟨h15, h14, h13, h12⟩ := opcode_eq_iff.mp h
  rw [decodeWord, h15, h14, h13, h12]
  rfl

theorem decodeWord_of_1110 {w : Word} (h : bits w 12 4 = 0b1110#4) : decodeWord w = .lea (regField w 9) (bits w 0 9) := by
  obtain ⟨h15, h14, h13, h12⟩ := opcode_eq_iff.mp h
  rw [decodeWord, h15, h14, h13, h12]
  rfl

/-! ### The load of the word at an address -/

/-- The state after the word read at `a`, with what arrives before the read, is written to `d` and its flag set: how LD, LDI
and LDR end (`exec_ld`, `exec_ldi`, `exec_ldr`). -/
def loadWord (d : Reg) (a : Word) (s : State) : State := writeResult d (readInStep a s).1 (readInStep a s).2

theorem loadWord_reg_same (d : Reg) (a : Word) (s : State) : (loadWord d a s).reg d = (readInStep a s).1 :=
  writeResult_reg_same d _ _

theorem loadWord_condReflects (d : Reg) (a : Word) (s : State) :
    CondReflects ((loadWord d a s).reg d) (loadWord d a s).cond :=
  writeResult_condReflects d _ _

theorem loadWord_onlyResultChanges (d : Reg) (a : Word) (s : State) :
    OnlyResultChanges d (readInStep a s).2 (loadWord d a s) :=
  writeResult_onlyResultChanges d _ _

/-- Away from the status address the read has no side effect. -/
theorem loadWord_plain {d : Reg} {a : Word} {s : State} (h : a ≠ s.cfg.kbsr) :
    (loadWord d a s).reg d = s.mem.word a ∧ OnlyResultChanges d (deliver s) (loadWord d a s) := by
  have hreg := loadWord_reg_same d a s
  have hframe := loadWord_onlyResultChanges d a s
  rw [readInStep_plain h] at hreg hframe
  exact ⟨hreg, hframe⟩

/-! ### What each instruction does -/

theorem exec_ld (d : Reg) (off : BitVec 9) (s : State) :
    exec (.ld d off) s = .next (loadWord d (s.pc + sext off) s) := rfl

theorem exec_ldi (d : Reg) (off : BitVec 9) (s : State) :
    exec (.ldi d off) s =
      .next (loadWord d (readInStep (s.pc + sext off) s).1 (readInStep (s.pc + sext off) s).2) := rfl

theorem exec_ldr (d b : Reg) (off : BitVec 6) (s : State) :
    exec (.ldr d b off) s = .next (loadWord d (s.reg b + sext off) s) := rfl

theorem exec_lea (d : Reg) (off : BitVec 9) (s : State) :
    exec (.lea d off) s = .next (writeResult d (s.pc + sext off) s) := rfl

end Sys2Proof.Machine

open Sys2Proof Sys2Proof.Machine

/-- Settles O29: LD loads the word at the PC-relative address. -/
theorem loadPcRelative : Obligations.LoadPcRelative :=
  ⟨fun _ hop => decodeWord_of_0010 hop, fun d off s => ⟨_, exec_ld d off s, loadWord_reg_same d _ s,
    loadWord_condReflects d _ s, loadWord_onlyResultChanges d _ s, loadWord_plain⟩⟩

/-- Settles O30: LDI loads the word at the pointer it reads; where neither read polls, the pointer's read only delivers, and
the memory the data is read from is that of the start. -/
theorem loadIndirect : Obligations.LoadIndirect := by
  refine ⟨fun w hop => decodeWord_of_1010 hop, fun d off s => ⟨_, exec_ldi d off s, ⟨loadWord_reg_same d _ _,
    loadWord_condReflects d _ _, loadWord_onlyResultChanges d _ _⟩, fun hpointer hdata => ?_⟩⟩
  rw [readInStep_plain hpointer]
  have hload := loadWord_plain (d := d) (s := deliver s) (by rwa [deliver_cfg])
  rwa [deliver_mem] at hload

/-- Settles O31: LDR loads the word at the base register's old value plus the offset. -/
theorem loadBasePlusOffset : Obligations.LoadBasePlusOffset :=
  ⟨fun _ hop => decodeWord_of_0110 hop, fun d b off s => ⟨_, exec_ldr d b off s, loadWord_reg_same d _ s,
    loadWord_condReflects d _ s, loadWord_onlyResultChanges d _ s, loadWord_plain⟩⟩

/-- Settles O32: LEA writes the PC-relative address itself as its result. -/
theorem loadEffectiveAddressSetsTheFlags : Obligations.LoadEffectiveAddressSetsTheFlags :=
  ⟨fun _ hop => decodeWord_of_1110 hop, fun d off s => ⟨_, exec_lea d off s, writeResult_reg_same d _ s,
    writeResult_condReflects d _ s, writeResult_onlyResultChanges d _ s⟩⟩

end

section
/-! SUPPORT. ST, STI, STR: the words of each (spec/30_encoding.md R82, R91, R92), and the one store that each makes
(spec/43_stores.md R140 to R142). -/

namespace Sys2Proof.Machine

/-! ### The words -/

theorem decodeWord_of_0011 {w : Word} (h : bits w 12 4 = 0b0011#4) : decodeWord w = .st (regField w 9) (bits w 0 9) := by
  obtain ⟨h15, h14, h13, h12⟩ := opcode_eq_iff.mp h
  rw [decodeWord, h15, h14, h13, h12]
  rfl

theorem decodeWord_of_0111 {w : Word} (h : bits w 12 4 = 0b0111#4) :
    decodeWord w = .str (regField w 9) (regField w 6) (bits w 0 6) := by
  obtain ⟨h15, h14, h13, h12⟩ := opcode_eq_iff.mp h
  rw [decodeWord, h15, h14, h13, h12]
  rfl

theorem decodeWord_of_1011 {w : Word} (h : bits w 12 4 = 0b1011#4) : decodeWord w = .sti (regField w 9) (bits w 0 9) := by
  obtain ⟨h15, h14, h13, h12⟩ := opcode_eq_iff.mp h
  rw [decodeWord, h15, h14, h13, h12]
  rfl

/-! ### The store that each instruction makes -/

theorem readInStep_reg (a : Word) (s : State) (q : Reg) : (readInStep a s).2.reg q = s.reg q := by
  rw [readInStep_snd, afterRead_reg, deliver_reg]

theorem exec_st (r : Reg) (off : BitVec 9) (s : State) :
    exec (.st r off) s = .next (memWrite (pcRelative9 off s) (s.reg r) s) := rfl

/-- The store is in the state after the pointer's read, which leaves the source register as it was. -/
theorem exec_sti (r : Reg) (off : BitVec 9) (s : State) :
    exec (.sti r off) s = .next (memWrite (readInStep (pcRelative9 off s) s).1 (s.reg r)
      (readInStep (pcRelative9 off s) s).2) := by
  rw [← readInStep_reg (pcRelative9 off s) s r]
  rfl

theorem exec_str (r b : Reg) (off : BitVec 6) (s : State) :
    exec (.str r b off) s = .next (memWrite (basePlusOffset b off s) (s.reg r) s) := rfl

end Sys2Proof.Machine

open Sys2Proof Sys2Proof.Machine

/-- Settles O33: ST is one store, at the PC-relative address. -/
theorem storePcRelative : Obligations.StorePcRelative :=
  ⟨fun _ hop => decodeWord_of_0011 hop, fun r off s => ⟨_, exec_st r off s, word_setWord_same .., rfl,
    memWrite_onlyWordChanges _ _ s⟩⟩

/-- Settles O34: STI is one store, at the pointer it reads; where that read does not poll, the pointer is the word in memory
and the read only delivers. -/
theorem storeIndirect : Obligations.StoreIndirect := by
  refine ⟨fun w hop => decodeWord_of_1011 hop, fun r off s => ⟨_, exec_sti r off s, ⟨word_setWord_same .., rfl,
    memWrite_onlyWordChanges _ _ _⟩, fun hpointer => ?_⟩⟩
  rw [readInStep_plain hpointer]
  exact ⟨word_setWord_same .., memWrite_onlyWordChanges _ _ _⟩

/-- Settles O35: STR is one store, at the base register plus the offset. -/
theorem storeBasePlusOffset : Obligations.StoreBasePlusOffset :=
  ⟨fun _ hop => decodeWord_of_0111 hop, fun r b off s => ⟨_, exec_str r b off s, word_setWord_same .., rfl,
    memWrite_onlyWordChanges _ _ s⟩⟩

end

section
/-! SUPPORT. The six trap services and the illegal words: the words of each (spec/30_encoding.md R93, spec/44_trap.md R151),
the wait of GETC and IN (R153, R156, R163), the frames of an emission and of the exception, and the two string scans (R155,
R157). -/

namespace Sys2Proof.Machine

/-! ### The words -/

/-- A service is told by the trap vector: a TRAP word is the service's of any word `u` with the same vector. -/
theorem decodeWord_of_vector {u w : Word} (hop : bits w 12 4 = 0b1111#4) (hv : bits w 0 8 = bits u 0 8)
    (hs : isServiceVector (bits u 0 8) = true) : decodeWord w = decodeTrap u := by
  rw [decodeWord_of_1111 hop]
  simp only [isServiceVector, Bool.or_eq_true, decide_eq_true_eq] at hs
  rcases hs with ((((h | h) | h) | h) | h) | h <;>
  · unfold decodeTrap
    rw [hv, h]
    rfl

theorem decodeWord_of_unknown_vector {w : Word} (hop : bits w 12 4 = 0b1111#4)
    (hv : (bits w 0 8).toNat < 0x20 ∨ 0x25 < (bits w 0 8).toNat) :
    decodeWord w = .trapUnknown (bits w 8 4) (bits w 0 8) := by
  refine (decodeWord_of_1111 hop).trans ((decodeTrap_eq_unknown_iff w).mpr ?_)
  rw [isServiceVector_iff]
  omega

/-! ### The wait -/

theorem exec_waits {i : Instr} (hi : readsKeyboard i) {s : State} (hq : s.kbdQ = []) :
    exec i s = .next (waitForInput s) := by
  rcases hi with rfl | rfl
  · exact execTrapGetc_nil hq
  · exact execTrapIn_nil hq

/-- A wait takes back the increment of the fetch. -/
theorem waitForInput_setPc (s : State) : waitForInput (s.setPc (s.pc + 1#16)) = s :=
  congrArg s.setPc (BitVec.add_sub_cancel s.pc 1#16)

theorem exec_waits_after_increment {i : Instr} (hi : readsKeyboard i) {s : State} (hq : s.kbdQ = []) :
    exec i (s.setPc (s.pc + 1#16)) = .next s :=
  (exec_waits (s := s.setPc (s.pc + 1#16)) hi hq).trans (congrArg Host.Outcome.next (waitForInput_setPc s))

/-- The fetch of a GETC or IN only delivers, and the wait takes its increment back. -/
theorem step_waiting {s : State} (h : s.Waiting) : step s = .next (deliver s) := by
  obtain ⟨hr, hk, hpoll⟩ := h
  have hq : (deliver s).kbdQ = [] := by simpa [kbdPoll] using hpoll
  rw [step_running hr, fetchedState_plain (pc_ne_kbsr_of_readsKeyboard hk), ← deliver_pc s,
    exec_waits_after_increment hk hq]

theorem waiting_of_nothing_pending {s : State} (hr : s.run = .running) (hk : readsKeyboard (decodeWord s.fetchedWord))
    (hq : (deliver s).kbdQ = []) : s.Waiting :=
  ⟨hr, hk, by simp [kbdPoll, hq]⟩

/-! ### The frames of an emission and of the exception -/

theorem conEmit_onlyOutputChanges (bs : List Byte) (s : State) : OnlyOutputChanges s (conEmit bs s) :=
  ⟨fun _ => rfl, rfl, rfl, ⟨rfl, rfl, rfl, rfl⟩, fun _ => rfl, rfl⟩

theorem raiseIllegalOpcode_faultEntered (c : IllegalReason) (ir : Word) (s : State) :
    FaultEntered c ir s (raiseIllegalOpcode c ir s) :=
  ⟨rfl, rfl, fun _ => rfl, rfl, rfl, fun _ => rfl, ⟨rfl, rfl⟩, rfl, rfl⟩

/-! ### What each service emits -/

theorem lowByte_toNat (v : Word) : (lowByte v).toNat = v.toNat % 256 := vector_toNat v

theorem exec_trapOut (s : State) : exec .trapOut s = .next (conEmit [lowByte (s.reg .r0)] s) := rfl

theorem exec_trapPuts (s : State) :
    exec .trapPuts s = .next (conEmit (putsScan s.mem scanFuel (s.reg .r0)) s) := rfl

theorem exec_trapPutsp (s : State) :
    exec .trapPutsp s = .next (conEmit (putspScan s.mem scanFuel (s.reg .r0)) s) := rfl

theorem exec_trapHalt (s : State) : exec .trapHalt s = .next (halt (conEmit s.cfg.haltNotice s)) := rfl

/-! ### Scans -/

/-- `out` is what a scan emits that has room for `room` elements: `emit` of each element before the first at which it stops,
or of all of them. -/
def IsScan (stop : Nat → Prop) (emit : Nat → Byte) (room : Nat) (out : List Byte) : Prop :=
  ∃ n, out = (List.range n).map emit ∧ n ≤ room ∧ (∀ k < n, ¬ stop k) ∧ (n = room ∨ stop n)

namespace IsScan

variable {stop : Nat → Prop} {emit : Nat → Byte} {room : Nat} {out : List Byte}

theorem of_stop (h : stop 0) : IsScan stop emit room [] := ⟨0, rfl, Nat.zero_le room, nofun, .inr h⟩

theorem of_no_room : IsScan stop emit 0 [] := ⟨0, rfl, Nat.le_refl 0, nofun, .inl rfl⟩

/-- A scan that does not stop at its first element emits it and goes on as the scan of the others. -/
theorem cons (h : ¬ stop 0) (hrest : IsScan (fun k => stop (k + 1)) (fun k => emit (k + 1)) room out) :
    IsScan stop emit (room + 1) (emit 0 :: out) := by
  obtain ⟨n, rfl, hn, hgo, hend⟩ := hrest
  refine ⟨n + 1, ?_, Nat.succ_le_succ hn, fun k hk => ?_, hend.imp_left (congrArg (· + 1))⟩
  · rw [List.range_succ_eq_map, List.map_cons, List.map_map]
    rfl
  · cases k with
    | zero => exact h
    | succ k => exact hgo k (Nat.lt_of_succ_lt_succ hk)

end IsScan

/-! ### The addresses of a scan -/

theorem scan_room (a : Word) : a.toNat + (65536 - a.toNat) = 65536 := Nat.add_sub_of_le a.isLt.le

/-- The next address, if there is one (the spec's decision D15). -/
theorem address_cases {a : Word} {room : Nat} (h : a.toNat + (room + 1) = 65536) :
    (a = 0xFFFF#16 ∧ room = 0) ∨ (a ≠ 0xFFFF#16 ∧ (a + 1#16).toNat + room = 65536) := by
  bv_omega

/-- A scan after the word at `a`: it is at the end of the address space, or goes on from the next address. -/
theorem IsScan.of_next_address {stop : Nat → Prop} {emit : Nat → Byte} {n room : Nat} {out : List Byte} {a : Word}
    (hn : room = 0 → n = 0) (hroom : a.toNat + (room + 1) = 65536)
    (hnext : (a + 1#16).toNat + room = 65536 → IsScan stop emit n out) :
    IsScan stop emit n (if a = 0xFFFF#16 then [] else out) := by
  rcases address_cases hroom with ⟨hlast, hzero⟩ | ⟨hlast, hsum⟩
  · rw [if_pos hlast, hn hzero]
    exact .of_no_room
  · rw [if_neg hlast]
    exact hnext hsum

theorem add_ofNat_succ (a : Word) (k : Nat) : a + BitVec.ofNat 16 (k + 1) = a + 1#16 + BitVec.ofNat 16 k := by
  rw [Nat.add_comm k 1, BitVec.ofNat_add, BitVec.add_assoc]

/-! ### PUTS -/

/-- Word `k` of the string at `a`. -/
def stringWord (m : Memory) (a : Word) (k : Nat) : Word := m.word (a + BitVec.ofNat 16 k)

theorem stringWord_zero (m : Memory) (a : Word) : stringWord m a 0 = m.word a := congrArg m.word (BitVec.add_zero a)

theorem stringWord_succ (m : Memory) (a : Word) (k : Nat) : stringWord m a (k + 1) = stringWord m (a + 1#16) k :=
  congrArg m.word (add_ofNat_succ a k)

/-- The loop of PUTS from `a`, with `room` addresses up to 0xFFFF and fuel for as many: a word at a time, up to a zero
word. -/
theorem isScan_putsScan (m : Memory) {fuel room : Nat} {a : Word} (hroom : a.toNat + room = 65536) (hfuel : room ≤ fuel) :
    IsScan (fun k => stringWord m a k = 0#16) (fun k => lowByte (stringWord m a k)) room (putsScan m fuel a) := by
  induction room generalizing a fuel with
  | zero => exact absurd hroom (Nat.ne_of_lt a.isLt)
  | succ room ih =>
    obtain ⟨fuel, rfl⟩ := Nat.exists_eq_add_one_of_ne_zero (Nat.ne_zero_of_lt hfuel)
    rw [putsScan, ← stringWord_zero m a]
    split
    case isTrue hzero => exact .of_stop hzero
    case isFalse hzero =>
      refine .cons hzero ?_
      simp only [stringWord_succ]
      exact .of_next_address id hroom fun hnext => ih hnext (Nat.le_of_succ_le_succ hfuel)

/-! ### PUTSP -/

theorem packedByte_zero (m : Memory) (a : Word) : packedByte m a 0 = lowByte (m.word a) := by
  simp [packedByte]

theorem packedByte_one (m : Memory) (a : Word) : packedByte m a 1 = highByte (m.word a) := by
  simp [packedByte]

theorem packedByte_add_two (m : Memory) (a : Word) (j : Nat) :
    packedByte m a (j + 2) = packedByte m (a + 1#16) j := by
  simp only [packedByte, Nat.add_mod_right, Nat.add_div_right j Nat.two_pos, ← add_ofNat_succ]

/-- The loop of PUTSP from `a`, with `room` addresses up to 0xFFFF and fuel for as many: two bytes a word, up to a zero
byte. -/
theorem isScan_putspScan (m : Memory) {fuel room : Nat} {a : Word} (hroom : a.toNat + room = 65536)
    (hfuel : room ≤ fuel) :
    IsScan (fun j => packedByte m a j = 0#8) (packedByte m a) (2 * room) (putspScan m fuel a) := by
  induction room generalizing a fuel with
  | zero => exact absurd hroom (Nat.ne_of_lt a.isLt)
  | succ room ih =>
    obtain ⟨fuel, rfl⟩ := Nat.exists_eq_add_one_of_ne_zero (Nat.ne_zero_of_lt hfuel)
    rw [putspScan, ← packedByte_zero, ← packedByte_one]
    have hrest : IsScan (fun j => packedByte m a (j + 2) = 0#8) (fun j => packedByte m a (j + 2)) (2 * room)
        (if a = 0xFFFF#16 then [] else putspScan m fuel (a + 1#16)) := by
      simp only [packedByte_add_two]
      exact .of_next_address (congrArg (2 * ·)) hroom fun hnext => ih hnext (Nat.le_of_succ_le_succ hfuel)
    split
    case isTrue hlow => exact .of_stop hlow
    case isFalse hlow =>
      refine .cons hlow ?_
      split
      case isTrue hhigh => exact .of_stop hhigh
      case isFalse hhigh => exact .cons hhigh hrest

end Sys2Proof.Machine

open Sys2Proof Sys2Proof.Machine

/-- Settles O18: the wait takes back the increment of `pc`, and the fetch of a GETC or IN polls nothing. -/
theorem waitingStepChangesNothing : Obligations.WaitingStepChangesNothing := fun _ h => step_waiting h

/-- Settles O39: the output is extended by a scan of the words from `x[0]` on. -/
theorem putsEmitsTheWordString : Obligations.PutsEmitsTheWordString := by
  refine ⟨fun w hop hv => decodeWord_of_vector (u := encode .trapPuts) hop hv rfl, fun s => ?_⟩
  obtain ⟨n, hout, hn, hgo, hend⟩ := isScan_putsScan s.mem (fuel := scanFuel) (scan_room (s.reg .r0)) (Nat.sub_le ..)
  exact ⟨_, n, exec_trapPuts s, congrArg (s.conOut ++ ·) hout, by omega, hgo, hend.imp_left (by omega),
    conEmit_onlyOutputChanges _ s⟩

/-- Settles O41: the output is extended by a scan of the packed bytes from `x[0]` on. -/
theorem putspEmitsThePackedString : Obligations.PutspEmitsThePackedString := by
  refine ⟨fun w hop hv => decodeWord_of_vector (u := encode .trapPutsp) hop hv rfl, fun s => ?_⟩
  obtain ⟨n, hout, hn, hgo, hend⟩ := isScan_putspScan s.mem (fuel := scanFuel) (scan_room (s.reg .r0)) (Nat.sub_le ..)
  exact ⟨_, n, exec_trapPutsp s, congrArg (s.conOut ++ ·) hout, by omega, hgo, hend.imp_left (by omega),
    conEmit_onlyOutputChanges _ s⟩

/-- Settles O37: the character taken is widened into `x[0]`; with nothing pending GETC waits. -/
theorem getcTakesTheOldestCharacter : Obligations.GetcTakesTheOldestCharacter := by
  refine ⟨fun w hop hv => decodeWord_of_vector (u := encode .trapGetc) hop hv rfl,
    fun s c q hq => ⟨_, execTrapGetc_cons hq, ?_, rfl, rfl, fun _ hr => reg_setReg_other _ _ hr, rfl, rfl,
      ⟨rfl, rfl, rfl, rfl⟩, fun _ => rfl⟩,
    fun s hr hw hq => step_waiting (waiting_of_nothing_pending hr (.inl hw) hq)⟩
  rw [reg_setReg_same, zext16_toNat]

/-- Settles O38: the byte emitted is the low one of `x[0]`. -/
theorem outEmitsTheLowByte : Obligations.OutEmitsTheLowByte :=
  ⟨fun _ hop hv => decodeWord_of_vector (u := encode .trapOut) hop hv rfl,
    fun s => ⟨_, exec_trapOut s, ⟨_, rfl, lowByte_toNat _⟩, conEmit_onlyOutputChanges _ s⟩⟩

/-- Settles O40: the character taken is emitted and widened into `x[0]`; with nothing pending IN waits. -/
theorem inEchoesTheCharacter : Obligations.InEchoesTheCharacter := by
  refine ⟨fun w hop hv => decodeWord_of_vector (u := encode .trapIn) hop hv rfl,
    fun s c q hq => ⟨_, execTrapIn_cons hq, ?_, rfl, rfl, fun _ hr => reg_setReg_other _ _ hr, rfl, rfl,
      ⟨rfl, rfl, rfl, rfl⟩, fun _ => rfl⟩,
    fun s hr hw hq => step_waiting (waiting_of_nothing_pending hr (.inr hw) hq)⟩
  rw [reg_setReg_same, zext16_toNat]

/-- Settles O42: HALT emits the notice and then writes HALTED, from which a step answers the same state. -/
theorem haltEmitsTheNoticeAndStops : Obligations.HaltEmitsTheNoticeAndStops :=
  ⟨fun _ hop hv => decodeWord_of_vector (u := encode .trapHalt) hop hv rfl,
    fun s => ⟨_, exec_trapHalt s, rfl, rfl, fun _ => rfl, rfl, rfl, fun _ => rfl, rfl, rfl, rfl, rfl, step_halted rfl⟩⟩

/-- Settles O43: GETC and IN take a character into `x[0]` or wait; the other four emit, and HALT writes the run state too. -/
theorem servicesPreserveTheOtherRegisters : Obligations.ServicesPreserveTheOtherRegisters := by
  intro i s t hi h
  cases i with
  | trapGetc | trapIn =>
    rcases exec_readsKeyboard_cases (by decide) h with ⟨c, q, bs, -, rfl⟩ | ⟨-, rfl⟩
    · exact ⟨fun _ hr => reg_setReg_other _ _ hr, rfl, fun _ => rfl, rfl, ⟨_, rfl⟩⟩
    · exact ⟨fun _ _ => rfl, rfl, fun _ => rfl, rfl, ⟨[], List.append_nil _⟩⟩
  | trapOut | trapPuts | trapPutsp | trapHalt =>
    cases h
    exact ⟨fun _ _ => rfl, rfl, fun _ => rfl, rfl, ⟨_, rfl⟩⟩
  | _ => simp at hi

/-- Settles O44: a vector that is no service's selects the unknown one, which takes the exception. -/
theorem unknownVectorFaults : Obligations.UnknownVectorFaults :=
  ⟨fun _ hop hv => decodeWord_of_unknown_vector hop hv,
    fun u v s => ⟨_, exec_illegal (i := .trapUnknown u v) rfl s, raiseIllegalOpcode_faultEntered _ _ s⟩⟩

/-- Settles O45: the two reserved opcodes take the exception. -/
theorem reservedOpcodesFault : Obligations.ReservedOpcodesFault :=
  ⟨fun _ hop => decodeWord_of_1000 hop, fun _ hop => decodeWord_of_1101 hop,
    fun u s => ⟨_, exec_illegal (i := .reserved1000 u) rfl s, raiseIllegalOpcode_faultEntered _ _ s⟩,
    fun u s => ⟨_, exec_illegal (i := .reserved1101 u) rfl s, raiseIllegalOpcode_faultEntered _ _ s⟩⟩

end

section
/-! SUPPORT. The step at an illegal word (spec/60_exceptions.md R171 to R173). -/

namespace Sys2Proof.Machine

/-- A running machine that fetches an illegal word takes the exception for that very word, in the state after the fetch. -/
theorem step_illegal {s : State} {c : IllegalReason} (hr : s.run = .running)
    (hc : illegalReason (decodeWord s.fetchedWord) = some c) :
    step s = .next (raiseIllegalOpcode c s.fetchedWord s.fetchedState) := by
  rw [step_running hr, exec_illegal hc, encode_decodeWord_of_illegal hc]

end Sys2Proof.Machine

open Sys2Proof Sys2Proof.Machine

/-- Settles O46: the step is the exception for the fetched word, which keeps the `pc` of the fetch; no step leaves FAULTED. -/
theorem faultIsPreciseAndRecordsTheWord : Obligations.FaultIsPreciseAndRecordsTheWord :=
  fun s c hr hc => ⟨raiseIllegalOpcode c s.fetchedWord s.fetchedState, step_illegal hr hc,
    raiseIllegalOpcode_faultEntered c s.fetchedWord s.fetchedState, fetchedState_pc s,
    step_faulted (raiseIllegalOpcode_run c s.fetchedWord s.fetchedState)⟩

/-- Settles O19: a legal instruction has its effects (`exec_legal`), and an illegal one takes the exception (`exec_illegal`). -/
theorem everyInstructionAnswersANextState : Obligations.EveryInstructionAnswersANextState := exec_next

end

section
/-! SUPPORT. Reset and boot (spec/70_reset_and_hazards.md R190 to R195): the words of an image's bytes, the memory its payload
loads to, and what boot answers. -/

namespace Sys2Proof.Machine

/-! ### The words of an image -/

/-- Two bytes a word (R194), so an odd number of bytes is no list of words (R195). -/
theorem wordsOfBytes_of_odd {image : List Byte} (h : image.length % 2 = 1) : wordsOfBytes image = none := by
  fun_induction wordsOfBytes image with
  | case1 => simp at h
  | case2 | case4 => rfl
  | case3 hi lo rest ws hws ih =>
    have hrest : rest.length % 2 = 1 := (Nat.add_mod_right _ 2).symm.trans h
    cases hws.symm.trans (ih hrest)

/-- The words of an image's bytes are the origin and the payload. -/
theorem wordsOfBytes_imageBytes (origin : Word) (payload : List Word) :
    wordsOfBytes (imageBytes origin payload) = some (origin :: payload) := by
  unfold imageBytes
  induction origin :: payload with
  | nil => rfl
  | cons w ws ih => simp [wordsOfBytes, ih, highByte_append_lowByte]

/-! ### The memory the payload loads to -/

/-- A payload of at most 65536 words meets no address twice, so the word at `b` is the one whose index is the distance of `b`
from the start, modulo 65536; at every other address the memory is as it was. -/
theorem word_loadWords (m : Memory) (a b : Word) {ws : List Word} (h : ws.length ≤ 65536) :
    (loadWords m a ws).word b = (ws[(b - a).toNat]?).getD (m.word b) := by
  induction ws generalizing m a with
  | nil => rfl
  | cons w ws ih =>
    rw [List.length_cons] at h
    rw [loadWords, ih _ _ (by omega)]
    by_cases hb : b = a
    · subst hb
      have hlast : (b - (b + 1#16)).toNat = 65535 := by bv_omega
      have hout : ws[65535]? = none := List.getElem?_eq_none (by omega)
      have hfirst : (b - b).toNat = 0 := by bv_omega
      rw [hlast, hout, hfirst, word_setWord_same, List.getElem?_cons_zero, Option.getD_none, Option.getD_some]
    · have hnext : (b - a).toNat = (b - (a + 1#16)).toNat + 1 := by bv_omega
      rw [hnext, List.getElem?_cons_succ, word_setWord_other _ _ hb]

/-! ### What boot answers -/

section Boot
variable {cfg : Config} (hwf : cfg.wf) (pending : List Byte) (arrivals : List (List Byte))
include hwf

/-- Fewer than two bytes hold no origin word (R195). -/
theorem boot_of_short {image : List Byte} (h : image.length < 2) :
    boot cfg pending arrivals image = .refused .imageWithoutOrigin := by
  rw [boot, if_neg hwf, if_pos h]

theorem boot_of_odd {image : List Byte} (h : 2 ≤ image.length) (hodd : image.length % 2 = 1) :
    boot cfg pending arrivals image = .refused .imageOfOddLength := by
  rw [boot, if_neg hwf, if_neg (by omega), wordsOfBytes_of_odd hodd]

/-- Boot loads an image that fits, and refuses one that would pass the top of memory (R194, R195). -/
theorem boot_imageBytes (origin : Word) (payload : List Word) :
    boot cfg pending arrivals (imageBytes origin payload) =
      if origin.toNat + payload.length ≤ 65536 then
        .next (State.resetWith cfg origin (loadWords [] origin payload) pending arrivals)
      else .refused .imageTooLarge := by
  have hlen : ¬ (imageBytes origin payload).length < 2 := by simp [imageBytes]
  rw [boot, if_neg hwf, if_neg hlen, wordsOfBytes_imageBytes]

end Boot

/-- A boot that is not refused leaves the state of R40 for the words of its image. -/
theorem boot_next {cfg : Config} {pending : List Byte} {arrivals : List (List Byte)} {image : List Byte} {t : State}
    (h : boot cfg pending arrivals image = .next t) :
    ∃ origin payload, wordsOfBytes image = some (origin :: payload) ∧
      t = State.resetWith cfg origin (loadWords [] origin payload) pending arrivals := by
  revert h
  -- Case 5 is the image that is loaded; the others are refused.
  fun_cases boot cfg pending arrivals image
  case case5 origin payload hwords _ => rintro ⟨⟩; exact ⟨origin, payload, hwords, rfl⟩
  all_goals exact nofun

@[simp] theorem resetWith_reg (cfg : Config) (origin : Word) (mem : Memory) (pending : List Byte)
    (arrivals : List (List Byte)) (r : Reg) : (State.resetWith cfg origin mem pending arrivals).reg r = 0x0000#16 := by
  cases r <;> rfl

end Sys2Proof.Machine

open Sys2Proof Sys2Proof.Machine

/-- Settles O58: the index of an address in the payload is its distance from the origin, and outside the payload the distance
is no index. -/
theorem bootLoadsTheImageAtItsOrigin : Obligations.BootLoadsTheImageAtItsOrigin := by
  intro cfg pending arrivals origin payload hwf hfit
  have hload := fun b => word_loadWords [] origin b (ws := payload) (by omega)
  refine ⟨_, (boot_imageBytes hwf pending arrivals origin payload).trans (if_pos hfit), fun k w hk => ?_, fun a ha => ?_, rfl⟩
  · have hlt : k < payload.length := (List.getElem?_eq_some_iff.mp hk).1
    have hindex : (origin + BitVec.ofNat 16 k - origin).toNat = k := by bv_omega
    exact (hload _).trans (by rw [hindex, hk, Option.getD_some])
  · have hout : payload.length ≤ (a - origin).toNat := by bv_omega
    exact (hload a).trans (by rw [List.getElem?_eq_none hout, Option.getD_none, word_nil])

/-- Settles O60: too short, odd, or past the top of memory. -/
theorem malformedImagesAreRefused : Obligations.MalformedImagesAreRefused :=
  fun _ pending arrivals hwf =>
    ⟨fun _ => boot_of_short hwf pending arrivals, fun _ => boot_of_odd hwf pending arrivals,
      fun origin payload h => (boot_imageBytes hwf pending arrivals origin payload).trans (if_neg (Nat.not_le.mpr h))⟩

/-- Settles O59: a boot that is not refused leaves `State.resetWith`. -/
theorem bootLeavesTheResetValues : Obligations.BootLeavesTheResetValues := by
  intro cfg pending arrivals image t h
  obtain ⟨origin, payload, -, rfl⟩ := boot_next h
  exact ⟨resetWith_reg _ _ _ _ _, rfl, rfl, rfl, rfl, rfl, rfl, rfl⟩

end

section
/-! SUPPORT. Decode and encode (spec/30_encoding.md section 5). Each row has a format, which puts the opcode and the operands
into fields and ignores every other bit (R95). The encoder fills the fields, the decoder reads them, and a word that holds an
instruction's fields decodes to it whatever its ignored bits are. -/

namespace Sys2Proof

/-! ### Words that agree in a field, and words that agree outside a mask -/

theorem bits_eq_ofBool_iff {w : Word} {k : Nat} {b : Bool} : bits w k 1 = BitVec.ofBool b ↔ w.getLsbD k = b := by
  have hbit : bits w k 1 = BitVec.ofBool (w.getLsbD k) := by
    apply BitVec.eq_of_getLsbD_eq
    intro i hi
    obtain rfl : i = 0 := by omega
    rw [getLsbD_bits, BitVec.getLsbD_ofBool]
    rfl
  rw [hbit, BitVec.ofBool_eq_iff_eq]

theorem bits_eq_toBits_iff {w : Word} {lo : Nat} {r : Reg} : bits w lo 3 = r.toBits ↔ regField w lo = r := by
  rw [← toBits_regField]
  exact ⟨fun h => by rw [← ofBits_toBits r, ← h, ofBits_toBits], congrArg Reg.toBits⟩

theorem bits_eq_iff {v w : Word} {lo len : Nat} :
    bits v lo len = bits w lo len ↔ ∀ k, lo ≤ k → k < lo + len → v.getLsbD k = w.getLsbD k := by
  constructor
  · intro h k hlo hhi
    have hbit := congrArg (fun b => b.getLsbD (k - lo)) h
    simpa only [getLsbD_bits, Nat.add_sub_of_le hlo, show k - lo < len by omega, decide_true, Bool.true_and] using hbit
  · intro h
    apply BitVec.eq_of_getLsbD_eq
    intro i hi
    rw [getLsbD_bits, getLsbD_bits, h (lo + i) (by omega) (by omega)]

theorem and_not_eq_iff {v w ignored : Word} : v &&& ~~~ignored = w &&& ~~~ignored ↔
    ∀ k < 16, ignored.getLsbD k = false → v.getLsbD k = w.getLsbD k := by
  constructor
  · intro h k hk hread
    have hbit := congrArg (fun b => b.getLsbD k) h
    simpa only [BitVec.getLsbD_and, BitVec.getLsbD_not, hk, hread, decide_true, Bool.not_false, Bool.and_true] using hbit
  · intro h
    apply BitVec.eq_of_getLsbD_eq
    intro k hk
    rw [BitVec.getLsbD_and, BitVec.getLsbD_and, BitVec.getLsbD_not]
    cases hread : ignored.getLsbD k with
    | true => simp only [Bool.not_true, Bool.and_false]
    | false => rw [h k hk hread]

/-! ### The format of each row -/

/-- A field of a format: its lowest bit, its length, and what an instruction puts there. -/
structure Field where
  lo : Nat
  len : Nat
  value : BitVec len

/-- The fields that an instruction's row reads, and what the instruction puts there (R84 to R93). -/
def Instr.fields : Instr → List Field
  | .addReg dr sr1 sr2 =>
    [⟨12, 4, 0b0001#4⟩, ⟨9, 3, dr.toBits⟩, ⟨6, 3, sr1.toBits⟩, ⟨5, 1, .ofBool false⟩, ⟨0, 3, sr2.toBits⟩]
  | .addImm dr sr1 imm5 =>
    [⟨12, 4, 0b0001#4⟩, ⟨9, 3, dr.toBits⟩, ⟨6, 3, sr1.toBits⟩, ⟨5, 1, .ofBool true⟩, ⟨0, 5, imm5⟩]
  | .andReg dr sr1 sr2 =>
    [⟨12, 4, 0b0101#4⟩, ⟨9, 3, dr.toBits⟩, ⟨6, 3, sr1.toBits⟩, ⟨5, 1, .ofBool false⟩, ⟨0, 3, sr2.toBits⟩]
  | .andImm dr sr1 imm5 =>
    [⟨12, 4, 0b0101#4⟩, ⟨9, 3, dr.toBits⟩, ⟨6, 3, sr1.toBits⟩, ⟨5, 1, .ofBool true⟩, ⟨0, 5, imm5⟩]
  | .not dr sr => [⟨12, 4, 0b1001#4⟩, ⟨9, 3, dr.toBits⟩, ⟨6, 3, sr.toBits⟩]
  | .br n z p off =>
    [⟨12, 4, 0b0000#4⟩, ⟨11, 1, .ofBool n⟩, ⟨10, 1, .ofBool z⟩, ⟨9, 1, .ofBool p⟩, ⟨0, 9, off⟩]
  | .jmp b => [⟨12, 4, 0b1100#4⟩, ⟨6, 3, b.toBits⟩]
  | .jsr off => [⟨12, 4, 0b0100#4⟩, ⟨11, 1, .ofBool true⟩, ⟨0, 11, off⟩]
  | .jsrr b => [⟨12, 4, 0b0100#4⟩, ⟨11, 1, .ofBool false⟩, ⟨6, 3, b.toBits⟩]
  | .ld dr off => [⟨12, 4, 0b0010#4⟩, ⟨9, 3, dr.toBits⟩, ⟨0, 9, off⟩]
  | .ldi dr off => [⟨12, 4, 0b1010#4⟩, ⟨9, 3, dr.toBits⟩, ⟨0, 9, off⟩]
  | .ldr dr b off => [⟨12, 4, 0b0110#4⟩, ⟨9, 3, dr.toBits⟩, ⟨6, 3, b.toBits⟩, ⟨0, 6, off⟩]
  | .lea dr off => [⟨12, 4, 0b1110#4⟩, ⟨9, 3, dr.toBits⟩, ⟨0, 9, off⟩]
  | .st sr off => [⟨12, 4, 0b0011#4⟩, ⟨9, 3, sr.toBits⟩, ⟨0, 9, off⟩]
  | .sti sr off => [⟨12, 4, 0b1011#4⟩, ⟨9, 3, sr.toBits⟩, ⟨0, 9, off⟩]
  | .str sr b off => [⟨12, 4, 0b0111#4⟩, ⟨9, 3, sr.toBits⟩, ⟨6, 3, b.toBits⟩, ⟨0, 6, off⟩]
  | .trapGetc => [⟨12, 4, 0b1111#4⟩, ⟨0, 8, 0x20#8⟩]
  | .trapOut => [⟨12, 4, 0b1111#4⟩, ⟨0, 8, 0x21#8⟩]
  | .trapPuts => [⟨12, 4, 0b1111#4⟩, ⟨0, 8, 0x22#8⟩]
  | .trapIn => [⟨12, 4, 0b1111#4⟩, ⟨0, 8, 0x23#8⟩]
  | .trapPutsp => [⟨12, 4, 0b1111#4⟩, ⟨0, 8, 0x24#8⟩]
  | .trapHalt => [⟨12, 4, 0b1111#4⟩, ⟨0, 8, 0x25#8⟩]
  | .trapUnknown u v => [⟨12, 4, 0b1111#4⟩, ⟨8, 4, u⟩, ⟨0, 8, v⟩]
  | .reserved1000 u => [⟨12, 4, 0b1000#4⟩, ⟨0, 12, u⟩]
  | .reserved1101 u => [⟨12, 4, 0b1101#4⟩, ⟨0, 12, u⟩]

/-- The word holds the instruction's fields. -/
def Instr.WrittenIn (i : Instr) (w : Word) : Prop := i.fields.Forall fun f => bits w f.lo f.len = f.value

/-- A row ignores exactly the bits that are in none of its fields (R95). -/
theorem ignoredBits_eq_false_iff (i : Instr) : ∀ k < 16,
    (i.ignoredBits.getLsbD k = false ↔ ∃ f ∈ i.fields, f.lo ≤ k ∧ k < f.lo + f.len) := by
  cases i <;> simp only [Instr.ignoredBits, Instr.fields, List.exists_mem_cons_iff] <;> decide

/-- Of two words that hold the same instruction, only ignored bits can differ. -/
theorem writtenIn_iff_and_not_eq {i : Instr} {v w : Word} (hv : i.WrittenIn v) :
    i.WrittenIn w ↔ v &&& ~~~i.ignoredBits = w &&& ~~~i.ignoredBits := by
  rw [Instr.WrittenIn, List.forall_iff_forall_mem] at hv
  rw [Instr.WrittenIn, List.forall_iff_forall_mem, and_not_eq_iff]
  constructor
  · intro hw k hk hread
    obtain ⟨f, hf, hlo, hhi⟩ := (ignoredBits_eq_false_iff i k hk).mp hread
    exact bits_eq_iff.mp ((hv f hf).trans (hw f hf).symm) k hlo hhi
  · intro h f hf
    refine (bits_eq_iff.mpr fun k hlo hhi => ?_).trans (hv f hf)
    by_cases hk : k < 16
    · exact (h k hk ((ignoredBits_eq_false_iff i k hk).mpr ⟨f, hf, hlo, hhi⟩)).symm
    · rw [BitVec.getLsbD_of_ge v k (Nat.not_lt.mp hk), BitVec.getLsbD_of_ge w k (Nat.not_lt.mp hk)]

/-! ### The encoder fills the fields, and the decoder reads them -/

theorem writtenIn_encode (i : Instr) : i.WrittenIn (encode i) := by
  unfold Instr.WrittenIn bits
  cases i <;> simp (disch := decide) only [Instr.fields, encode, List.Forall, BitVec.extractLsb'_append_eq_of_le,
    BitVec.extractLsb'_append_eq_of_add_le, Nat.reduceSub, BitVec.extractLsb'_eq_self, BitVec.extractLsb'_zero,
    BitVec.ofBool_true, BitVec.ofBool_false, BitVec.ofNat_eq_ofNat, and_self]

theorem writtenIn_decodeTrap {w : Word} (hop : bits w 12 4 = 0b1111#4) : (decodeTrap w).WrittenIn w := by
  -- Case 7 is no service's vector.
  fun_cases decodeTrap w
  case case7 => exact ⟨hop, rfl, rfl⟩
  all_goals exact ⟨hop, ‹_›⟩

theorem writtenIn_decodeWord (w : Word) : (decodeWord w).WrittenIn w := by
  -- Case 19 is the opcode 1111; each other case gives the four opcode bits, and the form bit where there is one.
  fun_cases decodeWord w
  case case19 h12 h13 h14 h15 => exact writtenIn_decodeTrap (opcode_eq_of_bits h15 h14 h13 h12)
  all_goals
    simp only [Instr.WrittenIn, Instr.fields, List.Forall, bits_eq_toBits_iff, bits_eq_ofBool_iff, opcode_eq_iff]
    simp [-BitVec.getLsbD_eq_getElem, *]

open Machine in
/-- A word that holds a well-formed instruction's fields decodes to it. -/
theorem decodeWord_of_writtenIn {i : Instr} (hi : i.wellFormed = true) {w : Word} (h : i.WrittenIn w) :
    decodeWord w = i := by
  cases i <;> simp only [Instr.WrittenIn, Instr.fields, List.Forall, bits_eq_toBits_iff, bits_eq_ofBool_iff] at h
  case addReg | addImm => simp only [decodeWord_of_0001, h, cond_true, cond_false]
  case andReg | andImm => simp only [decodeWord_of_0101, h, cond_true, cond_false]
  case not => simp only [decodeWord_of_1001, h]
  case br => simp only [decodeWord_of_0000, h]
  case jmp => simp only [decodeWord_of_1100, h]
  case jsr | jsrr => simp only [decodeWord_of_0100, h, cond_true, cond_false]
  case ld => simp only [decodeWord_of_0010, h]
  case ldi => simp only [decodeWord_of_1010, h]
  case ldr => simp only [decodeWord_of_0110, h]
  case lea => simp only [decodeWord_of_1110, h]
  case st => simp only [decodeWord_of_0011, h]
  case sti => simp only [decodeWord_of_1011, h]
  case str => simp only [decodeWord_of_0111, h]
  case reserved1000 => simp only [decodeWord_of_1000, h]
  case reserved1101 => simp only [decodeWord_of_1101, h]
  case trapUnknown =>
    obtain ⟨hop, rfl, rfl⟩ := h
    rw [decodeWord_of_1111 hop, decodeTrap_eq_unknown_iff]
    simpa [Instr.wellFormed] using hi
  case trapGetc | trapOut | trapPuts | trapIn | trapPutsp | trapHalt => simp [decodeWord_of_1111, decodeTrap, h]

/-! ### Every word is that of a well-formed instruction -/

theorem wellFormed_decodeTrap (w : Word) : (decodeTrap w).wellFormed = true := by
  fun_cases decodeTrap w
  case case7 h20 h21 h22 h23 h24 h25 => simp [Instr.wellFormed, isServiceVector, h20, h21, h22, h23, h24, h25]
  all_goals rfl

theorem wellFormed_decodeWord (w : Word) : (decodeWord w).wellFormed = true := by
  fun_cases decodeWord w
  case case19 => exact wellFormed_decodeTrap w
  all_goals rfl

end Sys2Proof

open Sys2Proof Sys2Proof.Machine

/-- Settles O9: the word of an instruction holds its fields. -/
theorem decodeOfEncodeIsTheInstruction : Obligations.DecodeOfEncodeIsTheInstruction :=
  fun i hi => decodeWord_of_writtenIn hi (writtenIn_encode i)

/-- Settles O10: a word and the encoder's word hold the fields of the same instruction. -/
theorem encodeOfDecodeKeepsEveryReadBit : Obligations.EncodeOfDecodeKeepsEveryReadBit :=
  fun w => ⟨wellFormed_decodeWord w, (writtenIn_iff_and_not_eq (writtenIn_encode _)).mp (writtenIn_decodeWord w)⟩

/-- Settles O11: a word that agrees with another in the bits that are read holds the other's instruction. -/
theorem ignoredBitsDoNotMatter : Obligations.IgnoredBitsDoNotMatter :=
  fun w _ h => decodeWord_of_writtenIn (wellFormed_decodeWord w)
    ((writtenIn_iff_and_not_eq (writtenIn_decodeWord w)).mpr h)

/-- Settles O8, by the decoder's value at each of the ten words. -/
theorem writtenOutWordsDecode : Obligations.WrittenOutWordsDecode := by
  unfold Obligations.WrittenOutWordsDecode
  decide

end

section
/-! SUPPORT. The invariant after boot (spec/70_reset_and_hazards.md R190 to R195), and the machine that has stopped (R33). -/

namespace Sys2Proof.Machine

/-- Equal keyboard addresses are refused (spec/00_scope.md R6). -/
theorem cfg_wf_of_boot_next {cfg : Config} {pending : List Byte} {arrivals : List (List Byte)} {image : List Byte} {t : State}
    (h : boot cfg pending arrivals image = .next t) : cfg.wf := by
  intro heq
  rw [boot, if_pos heq] at h
  cases h

theorem resetWith_inv {cfg : Config} (hwf : cfg.wf) (origin : Word) {mem : Memory} (hmem : mem.wf) (pending : List Byte)
    (arrivals : List (List Byte)) : (State.resetWith cfg origin mem pending arrivals).Inv where
  memory := hmem
  config := hwf
  recorded := iff_of_false nofun (· rfl)
  truthful := nofun

end Sys2Proof.Machine

open Sys2Proof Sys2Proof.Machine

/-- Settles O55: the load keeps zeroed memory canonical, and the rest is as at reset. -/
theorem bootEstablishesTheInvariant : Obligations.BootEstablishesTheInvariant := by
  intro cfg pending arrivals image t h
  obtain ⟨origin, payload, -, rfl⟩ := boot_next h
  exact resetWith_inv (cfg_wf_of_boot_next h) origin (wf_loadWords wf_nil origin payload) pending arrivals

/-- Settles O15: the cycle's two stopped states. -/
theorem stoppedMachineTakesNoStep : Obligations.StoppedMachineTakesNoStep := fun _ => ⟨step_halted, step_faulted⟩

end
